-- ==== Sys2Proof/Word.lean ====
section
/-! DEFINITION. The widths of the machine: the 16-bit word of registers, cells and instructions, the
8-bit console byte, the register index and the three condition flags (00_scope.md R7). -/

namespace Sys2Proof

/-- The word of a register, a memory cell, an address and an instruction: 16 bits (R7). A word is kept
as its bit pattern; the signed reading is taken only where a rule says so (R10). -/
abbrev Word := BitVec 16

/-- What the console moves: one byte (R14). -/
abbrev Byte := BitVec 8

/-- The index of a general register, 0 to 7 (R21): every index names a register. -/
abbrev Reg := Fin 8

/-- The condition codes, three independent flags in the order n, z, p (R27). -/
structure Cond where
  n : Bool
  z : Bool
  p : Bool
deriving DecidableEq, Repr

end Sys2Proof
end

