-- ==== Sys2Proof/Syntax.lean ====
section
/-! DEFINITION. The instructions: one constructor for each row of spec/opcode_table.json, that is for each
variant of 30_encoding.md R75, with the fields R75 gives it. An immediate or offset is carried
sign-extended to 16 bits, as R75 has it. -/

namespace Sys2Proof

/-- The sixteen values of the opcode field, bits[15:12], by name (30_encoding.md R61, R69). -/
inductive Opcode where
  | br | add | ld | st | jsr | and_ | ldr | str | rti | not_ | ldi | sti | jmp | reserved | lea | trap
deriving DecidableEq, Repr

/-- A decoded instruction (R75): "a closed set of variants, one per opcode (and per sub-opcode…)". -/
inductive Instr where
  /-- ADD, register mode: R110. -/
  | add (dr sr1 sr2 : Reg)
  /-- ADDi, immediate mode: R111. -/
  | addi (dr sr1 : Reg) (imm : Word)
  /-- AND, register mode: R112. -/
  | and_ (dr sr1 sr2 : Reg)
  /-- ANDi, immediate mode: R113. -/
  | andi (dr sr1 : Reg) (imm : Word)
  /-- NOT: R114. -/
  | not_ (dr sr : Reg)
  /-- BR: R120. -/
  | br (n z p : Bool) (off : Word)
  /-- JMP: R121. -/
  | jmp (base : Reg)
  /-- JSR: R122. -/
  | jsr (off : Word)
  /-- JSRR: R123. -/
  | jsrr (base : Reg)
  /-- LD: R130. -/
  | ld (dr : Reg) (off : Word)
  /-- LDI: R131. -/
  | ldi (dr : Reg) (off : Word)
  /-- LDR: R132. -/
  | ldr (dr base : Reg) (off : Word)
  /-- LEA: R133. -/
  | lea (dr : Reg) (off : Word)
  /-- ST: R140. -/
  | st (sr : Reg) (off : Word)
  /-- STI: R141. -/
  | sti (sr : Reg) (off : Word)
  /-- STR: R142. -/
  | str (sr base : Reg) (off : Word)
  /-- TRAP: R150. -/
  | trap (vect : Byte)
  /-- RTI: R156. -/
  | rti
  /-- Opcode 1101, with its whole word: R72, R157. -/
  | reserved (word : Word)
deriving DecidableEq, Repr

end Sys2Proof
end

