-- ==== Sys2Proof/WellFormed.lean ====
section
/-! DEFINITION. Which terms of `Instr` stand for an instruction of the machine: the 16-bit immediates and
offsets must be the sign extension of a field of the format's width (30_encoding.md R67, R75), and a
RESERVED word must carry opcode 1101 (R72). Register indices and the trap vector need no check: every
value of their types is legal (R21, R68). -/

namespace Sys2Proof

/-- `v` is the sign extension of its own low `k` bits: an immediate of a `k`-bit field (R11, R67). -/
def fitsSigned (k : Nat) (v : Word) : Bool :=
  v == (v.extractLsb' 0 k).signExtend 16

/-- The instruction is one that some word decodes to. -/
def Instr.wf : Instr → Bool
  | .addi _ _ imm => fitsSigned 5 imm
  | .andi _ _ imm => fitsSigned 5 imm
  | .br _ _ _ off => fitsSigned 9 off
  | .jsr off => fitsSigned 11 off
  | .ld _ off => fitsSigned 9 off
  | .ldi _ off => fitsSigned 9 off
  | .lea _ off => fitsSigned 9 off
  | .st _ off => fitsSigned 9 off
  | .sti _ off => fitsSigned 9 off
  | .ldr _ _ off => fitsSigned 6 off
  | .str _ _ off => fitsSigned 6 off
  | .reserved word => word.extractLsb' 12 4 == 0b1101#4
  | .add _ _ _ => true
  | .and_ _ _ _ => true
  | .not_ _ _ => true
  | .jmp _ => true
  | .jsrr _ => true
  | .trap _ => true
  | .rti => true

end Sys2Proof
end

