-- ==== Sys2Proof/Decode.lean ====
section
/-! DEFINITION. The Decoder (30_encoding.md): total on the 65536 words and with no error outcome (R76); after
it the encoder, written from the same table of formats (R70), and the opcode table with the canonical
values of the unread bits (R70, R71; opcode_table.json). Bits are numbered 15 = MSB to 0 = LSB (R9). -/

namespace Sys2Proof

/-! ### Fields of a word -/

/-- The opcode selector, bits[15:12] (R61). -/
def opcodeBits (w : Word) : BitVec 4 := w.extractLsb' 12 4

/-- The register field whose lowest bit is `lo`: 9 for dr and the stores' sr, 6 for sr1, base_r and NOT's
sr, 0 for sr2 (R62, R63). -/
def regField (w : Word) (lo : Nat) : Reg := (w.extractLsb' lo 3).toFin

/-- `sext_k` of the low `k` bits: the immediates and offsets of R67, sign-extended by R11. -/
def sextField (w : Word) (k : Nat) : Word := (w.extractLsb' 0 k).signExtend 16

/-- bits[7:0], the trap vector (R68). -/
def vectField (w : Word) : Byte := w.extractLsb' 0 8

/-! ### The opcode map (R69) -/

/-- R69's table, read from name to value. PRESUMED but for 0100 and 1000 (the spec's D1; log 15). -/
def Opcode.bits : Opcode → BitVec 4
  | .br => 0b0000#4
  | .add => 0b0001#4
  | .ld => 0b0010#4
  | .st => 0b0011#4
  | .jsr => 0b0100#4
  | .and_ => 0b0101#4
  | .ldr => 0b0110#4
  | .str => 0b0111#4
  | .rti => 0b1000#4
  | .not_ => 0b1001#4
  | .ldi => 0b1010#4
  | .sti => 0b1011#4
  | .jmp => 0b1100#4
  | .reserved => 0b1101#4
  | .lea => 0b1110#4
  | .trap => 0b1111#4

/-- R69's table, read from value to name. Fifteen values are listed, so the last line is 1111 alone
(`Opcode.bits_ofBits`, Laws/Decode.lean: nothing falls through). -/
def Opcode.ofBits (b : BitVec 4) : Opcode :=
  match b with
  | 0b0000#4 => .br
  | 0b0001#4 => .add
  | 0b0010#4 => .ld
  | 0b0011#4 => .st
  | 0b0100#4 => .jsr
  | 0b0101#4 => .and_
  | 0b0110#4 => .ldr
  | 0b0111#4 => .str
  | 0b1000#4 => .rti
  | 0b1001#4 => .not_
  | 0b1010#4 => .ldi
  | 0b1011#4 => .sti
  | 0b1100#4 => .jmp
  | 0b1101#4 => .reserved
  | 0b1110#4 => .lea
  | _ => .trap

/-- The opcode an instruction belongs to (R69). -/
def Instr.opcode : Instr → Opcode
  | .add _ _ _ => .add
  | .addi _ _ _ => .add
  | .and_ _ _ _ => .and_
  | .andi _ _ _ => .and_
  | .not_ _ _ => .not_
  | .br _ _ _ _ => .br
  | .jmp _ => .jmp
  | .jsr _ => .jsr
  | .jsrr _ => .jsr
  | .ld _ _ => .ld
  | .ldi _ _ => .ldi
  | .ldr _ _ _ => .ldr
  | .lea _ _ => .lea
  | .st _ _ => .st
  | .sti _ _ => .sti
  | .str _ _ _ => .str
  | .trap _ => .trap
  | .rti => .rti
  | .reserved _ => .reserved

/-! ### The Decoder -/

/-- The Decoder of R76. The bits a line does not extract are not read (R71). -/
def decode (w : Word) : Instr :=
  match Opcode.ofBits (opcodeBits w) with
  | .br => .br (w.getLsbD 11) (w.getLsbD 10) (w.getLsbD 9) (sextField w 9)
  | .add =>
    if w.getLsbD 5 then .addi (regField w 9) (regField w 6) (sextField w 5)
    else .add (regField w 9) (regField w 6) (regField w 0)
  | .ld => .ld (regField w 9) (sextField w 9)
  | .st => .st (regField w 9) (sextField w 9)
  | .jsr => if w.getLsbD 11 then .jsr (sextField w 11) else .jsrr (regField w 6)
  | .and_ =>
    if w.getLsbD 5 then .andi (regField w 9) (regField w 6) (sextField w 5)
    else .and_ (regField w 9) (regField w 6) (regField w 0)
  | .ldr => .ldr (regField w 9) (regField w 6) (sextField w 6)
  | .str => .str (regField w 9) (regField w 6) (sextField w 6)
  | .rti => .rti
  | .not_ => .not_ (regField w 9) (regField w 6)
  | .ldi => .ldi (regField w 9) (sextField w 9)
  | .sti => .sti (regField w 9) (sextField w 9)
  | .jmp => .jmp (regField w 6)
  | .reserved => .reserved w
  | .lea => .lea (regField w 9) (sextField w 9)
  | .trap => .trap (vectField w)

/-- The decoder on a word numbered as opcode_table.json numbers it: an instruction is one 16-bit word
(R60), so a number of more than 16 bits is no instruction. -/
def decodeTableWord (nbits w : Nat) : Option Instr :=
  if nbits ≤ 16 ∧ w < 2 ^ nbits then some (decode (BitVec.ofNat 16 w)) else none

/-! ### The encoder -/

/-- The three bits of a register index (R62). -/
def regBits (r : Reg) : BitVec 3 := BitVec.ofFin r

/-- The low `k` bits of a sign-extended immediate, its field in the word (R67). -/
def immBits (k : Nat) (v : Word) : BitVec k := v.extractLsb' 0 k

/-- A field put into a word, its lowest bit at bit `lo`. -/
def place (lo : Nat) {k : Nat} (f : BitVec k) : Word := f.setWidth 16 <<< lo

/-- The word of a well-formed instruction, by the formats of R70. An unread bit takes the canonical value
R70 gives in parentheses. PRESUMED for those bits (the spec's G4; log 27). -/
def encode : Instr → Word
  | .add dr sr1 sr2 =>
    place 12 0b0001#4 ||| place 9 (regBits dr) ||| place 6 (regBits sr1) ||| place 0 (regBits sr2)
  | .addi dr sr1 imm =>
    place 12 0b0001#4 ||| place 9 (regBits dr) ||| place 6 (regBits sr1) ||| place 5 0b1#1 |||
      place 0 (immBits 5 imm)
  | .and_ dr sr1 sr2 =>
    place 12 0b0101#4 ||| place 9 (regBits dr) ||| place 6 (regBits sr1) ||| place 0 (regBits sr2)
  | .andi dr sr1 imm =>
    place 12 0b0101#4 ||| place 9 (regBits dr) ||| place 6 (regBits sr1) ||| place 5 0b1#1 |||
      place 0 (immBits 5 imm)
  | .not_ dr sr =>
    place 12 0b1001#4 ||| place 9 (regBits dr) ||| place 6 (regBits sr) ||| place 0 0b111111#6
  | .br n z p off =>
    place 12 0b0000#4 ||| place 11 (BitVec.ofBool n) ||| place 10 (BitVec.ofBool z) |||
      place 9 (BitVec.ofBool p) ||| place 0 (immBits 9 off)
  | .jmp base => place 12 0b1100#4 ||| place 6 (regBits base)
  | .jsr off => place 12 0b0100#4 ||| place 11 0b1#1 ||| place 0 (immBits 11 off)
  | .jsrr base => place 12 0b0100#4 ||| place 6 (regBits base)
  | .ld dr off => place 12 0b0010#4 ||| place 9 (regBits dr) ||| place 0 (immBits 9 off)
  | .ldi dr off => place 12 0b1010#4 ||| place 9 (regBits dr) ||| place 0 (immBits 9 off)
  | .ldr dr base off =>
    place 12 0b0110#4 ||| place 9 (regBits dr) ||| place 6 (regBits base) ||| place 0 (immBits 6 off)
  | .lea dr off => place 12 0b1110#4 ||| place 9 (regBits dr) ||| place 0 (immBits 9 off)
  | .st sr off => place 12 0b0011#4 ||| place 9 (regBits sr) ||| place 0 (immBits 9 off)
  | .sti sr off => place 12 0b1011#4 ||| place 9 (regBits sr) ||| place 0 (immBits 9 off)
  | .str sr base off =>
    place 12 0b0111#4 ||| place 9 (regBits sr) ||| place 6 (regBits base) ||| place 0 (immBits 6 off)
  | .trap vect => place 12 0b1111#4 ||| place 0 vect
  | .rti => place 12 0b1000#4
  | .reserved word => word

/-! ### The unread bits -/

/-- A word none of whose unread bits departs from the value R70 gives it in parentheses: the words that
`STRICT_FIXED_BITS = true` accepts (R71, R95 `canonical(w)`). The formats without an `x` accept every word,
and RESERVED has no canonical form (opcode_table.json). PRESUMED values (the spec's G4; log 18). -/
def canonical (w : Word) : Bool :=
  match Opcode.ofBits (opcodeBits w) with
  | .add => w.getLsbD 5 || w.extractLsb' 3 2 == 0b00#2
  | .and_ => w.getLsbD 5 || w.extractLsb' 3 2 == 0b00#2
  | .not_ => w.extractLsb' 0 6 == 0b111111#6
  | .jmp => w.extractLsb' 9 3 == 0b000#3 && w.extractLsb' 0 6 == 0b000000#6
  | .jsr => w.getLsbD 11 || (w.extractLsb' 9 2 == 0b00#2 && w.extractLsb' 0 6 == 0b000000#6)
  | .trap => w.extractLsb' 8 4 == 0b0000#4
  | .rti => w.extractLsb' 0 12 == 0b000000000000#12
  | .br => true
  | .ld => true
  | .st => true
  | .ldr => true
  | .str => true
  | .ldi => true
  | .sti => true
  | .lea => true
  | .reserved => true

/-! ### The opcode table -/

/-- A row of opcode_table.json: a word belongs to it when its bits under `mask` are `value`, and is
canonical when its bits under `canonMask` are `canonValue`. -/
structure OpcodeRow where
  mnemonic : String
  value : Word
  mask : Word
  canonValue : Word
  canonMask : Word
deriving DecidableEq, Repr

/-- Does the word belong to the row? -/
def OpcodeRow.covers (r : OpcodeRow) (w : Word) : Bool := w &&& r.mask == r.value

/-- Has the word the row's canonical values in its unread bits (R70, in parentheses)? -/
def OpcodeRow.isCanonical (r : OpcodeRow) (w : Word) : Bool := w &&& r.canonMask == r.canonValue

/-- opcode_table.json, row by row; a row that gives no canonical form has no unread bit to check. -/
def opcodeTable : List OpcodeRow :=
  [⟨"BR", 0x0000#16, 0xF000#16, 0x0000#16, 0xF000#16⟩,
   ⟨"ADD", 0x1000#16, 0xF020#16, 0x1000#16, 0xF038#16⟩,
   ⟨"ADDi", 0x1020#16, 0xF020#16, 0x1020#16, 0xF020#16⟩,
   ⟨"LD", 0x2000#16, 0xF000#16, 0x2000#16, 0xF000#16⟩,
   ⟨"ST", 0x3000#16, 0xF000#16, 0x3000#16, 0xF000#16⟩,
   ⟨"JSRR", 0x4000#16, 0xF800#16, 0x4000#16, 0xFE3F#16⟩,
   ⟨"JSR", 0x4800#16, 0xF800#16, 0x4800#16, 0xF800#16⟩,
   ⟨"AND", 0x5000#16, 0xF020#16, 0x5000#16, 0xF038#16⟩,
   ⟨"ANDi", 0x5020#16, 0xF020#16, 0x5020#16, 0xF020#16⟩,
   ⟨"LDR", 0x6000#16, 0xF000#16, 0x6000#16, 0xF000#16⟩,
   ⟨"STR", 0x7000#16, 0xF000#16, 0x7000#16, 0xF000#16⟩,
   ⟨"RTI", 0x8000#16, 0xF000#16, 0x8000#16, 0xFFFF#16⟩,
   ⟨"NOT", 0x9000#16, 0xF000#16, 0x903F#16, 0xF03F#16⟩,
   ⟨"LDI", 0xA000#16, 0xF000#16, 0xA000#16, 0xF000#16⟩,
   ⟨"STI", 0xB000#16, 0xF000#16, 0xB000#16, 0xF000#16⟩,
   ⟨"JMP", 0xC000#16, 0xF000#16, 0xC000#16, 0xFE3F#16⟩,
   ⟨"RESERVED", 0xD000#16, 0xF000#16, 0xD000#16, 0xF000#16⟩,
   ⟨"LEA", 0xE000#16, 0xF000#16, 0xE000#16, 0xF000#16⟩,
   ⟨"TRAP", 0xF000#16, 0xF000#16, 0xF000#16, 0xFF00#16⟩]

/-- The instruction's mnemonic as opcode_table.json spells it. -/
def Instr.mnemonic : Instr → String
  | .add _ _ _ => "ADD"
  | .addi _ _ _ => "ADDi"
  | .and_ _ _ _ => "AND"
  | .andi _ _ _ => "ANDi"
  | .not_ _ _ => "NOT"
  | .br _ _ _ _ => "BR"
  | .jmp _ => "JMP"
  | .jsr _ => "JSR"
  | .jsrr _ => "JSRR"
  | .ld _ _ => "LD"
  | .ldi _ _ => "LDI"
  | .ldr _ _ _ => "LDR"
  | .lea _ _ => "LEA"
  | .st _ _ => "ST"
  | .sti _ _ => "STI"
  | .str _ _ _ => "STR"
  | .trap _ => "TRAP"
  | .rti => "RTI"
  | .reserved _ => "RESERVED"

end Sys2Proof
end

