-- ==== Sys2Proof/Config.lean ====
section
/-! DEFINITION. The parameters that the source leaves open and the spec names (00_scope.md R8), with the
defaults a deterministic simulator runs with, and the one free value of the model, the console's input. -/

namespace Sys2Proof

/-- `JMP_MODE`: does JMP add the base register to the PC, or assign it? (R8, R121, decision D4) -/
inductive JmpMode where
  /-- `ADD`, the default and the source's behaviour. -/
  | add
  /-- `ASSIGN`, the canonical LC-3's. -/
  | assign
deriving DecidableEq, Repr

/-- `JSRR_ORDER`: does JSRR write R7 before or after it reads BaseR? (R8, R123, decision D5) -/
inductive JsrrOrder where
  /-- `LINK_FIRST`, the default and the source's stated order. -/
  | linkFirst
  /-- `READ_FIRST`, the canonical LC-3's. -/
  | readFirst
deriving DecidableEq, Repr

/-- The parameters of R8 that instructions consult while a program runs. -/
structure Params where
  jmpMode : JmpMode
  jsrrOrder : JsrrOrder
  /-- `STRICT_FIXED_BITS`: does a word with a non-canonical unread bit raise IllegalEncoding? (R71, D3) -/
  strictFixedBits : Bool
deriving DecidableEq, Repr

/-- What the console does once the bytes it is known to hold are used up (R90, R99, R100). -/
inductive ConsoleTail where
  /-- The stream has ended, or failed: a read returns END (R151). -/
  | ended
  /-- No byte ever comes: a read waits for ever (R100 "blocked"). -/
  | silent
  /-- The rest of the stream is the host's: a read is a free draw, any byte or END (R99, D13). -/
  | free
deriving DecidableEq, Repr

/-- What a launch fixes beside the memory image (R190): the parameters of R8. -/
structure LaunchParams where
  /-- `ORIGIN`, the entry point (D6). -/
  origin : Word
  /-- `INIT_REGS` (D7). -/
  initRegs : Vector Word 8
  /-- `INIT_COND` (D8). -/
  initCond : Cond
  params : Params
  /-- The console bytes known in advance, the next one first (R8 "console input stream"). -/
  conIn : List Byte
  conTail : ConsoleTail
deriving DecidableEq, Repr

namespace Config

/-- R8's defaults of the three modes. DESIGN CHOICE (the spec's D3, D4, D5; log 6, 7, 8). -/
def params : Params := { jmpMode := .add, jsrrOrder := .linkFirst, strictFixedBits := false }

/-- R8's defaults. DESIGN CHOICE (the spec's D6, D7, D8; log 2, 3, 4); the console's stream is not known
in advance (log 10). -/
def launchParams : LaunchParams where
  origin := 0x3000#16
  initRegs := Vector.replicate 8 0x0000#16
  initCond := { n := false, z := false, p := false }
  params := params
  conIn := []
  conTail := .free

/-- The free console input: the draw of the read that follows `k` consumed bytes, `none` for END (R99:
"A model gives every `ConsoleRead()` a free input, which may be any byte or `END`"). It has no value. -/
opaque consoleDraw : Nat → Option Byte

end Config

end Sys2Proof
end

