-- ==== Sys2Proof/Machine/State.lean ====
section
/-! DEFINITION. The state of the machine (10_state.md R20), as plain data, with the launch parameters its
instructions consult (00_scope.md R8) and the two console streams (40_cycle.md R90, R102); the fault
record (60_exceptions.md R172); the reasons a step can stop; and the state after reset (R37). -/

namespace Sys2Proof.Machine

/-- The memory's contents: (address, cell) pairs. The unit is the 16-bit cell (20_memory.md R43, R45), and
`Memory.wf` (Machine/Ops.lean) is the one canonical form: addresses rising, no cell that holds what an
unlisted address reads as. DESIGN CHOICE (log 22). -/
abbrev Memory := List (Nat × Word)

/-- The machine's fatal errors (R171). These are outcomes the spec records in `fault`, not the reasons for
which `step` has no next state (`Fault`). -/
inductive FaultKind where
  /-- Code 1: any execution of opcode 1000. -/
  | rtiUnimplemented
  /-- Code 2: a trap vector outside the service table. -/
  | trapUnimplemented
  /-- Code 3: any execution of opcode 1101. -/
  | reservedOpcode
  /-- Code 4: GETC at end of stream or on a console error. -/
  | consoleInputEnd
  /-- Code 5: PUTS finds no zero cell up to 0xFFFF. -/
  | putsOverrun
  /-- Code 6: only with `STRICT_FIXED_BITS`. -/
  | illegalEncoding
deriving DecidableEq, Repr

/-- The extra datum of a fault record (R171, column "info recorded"). -/
inductive FaultInfo where
  | nothing
  /-- The trap vector of TrapUnimplemented. -/
  | vect (v : Byte)
  /-- The start address of PutsOverrun. -/
  | start (a : Word)
deriving DecidableEq, Repr

/-- The fault record `(kind, word, addr, info)` (R172). -/
structure FaultRecord where
  kind : FaultKind
  /-- The fetched instruction word. -/
  word : Word
  /-- The address it was fetched from. -/
  addr : Word
  info : FaultInfo
deriving DecidableEq, Repr

/-- The state of the machine. `regs` to `fault` are R20's record; `params` holds the arguments of R8 that
instructions consult, which no instruction changes (log 1); `conIn` to `conOut` are the console's two
streams, which are not state of the core (R35) and are held because GETC reads the one and a host observes
the other (R102; log 10, 21). -/
structure State where
  /-- `x[0..7]` (R21). -/
  regs : Vector Word 8
  /-- `pc` (R24). -/
  pc : Word
  /-- `cond` (R27). -/
  cond : Cond
  /-- `mem` (R40). -/
  mem : Memory
  /-- `halted` (R31). -/
  halted : Bool
  /-- `fault`, NONE or a record (R32). -/
  fault : Option FaultRecord
  /-- `JMP_MODE`, `JSRR_ORDER`, `STRICT_FIXED_BITS` (R8). -/
  params : Params
  /-- The console bytes known in advance, the next one first (R8). -/
  conIn : List Byte
  /-- What a read finds when `conIn` is empty. -/
  conTail : ConsoleTail
  /-- The number of bytes consumed from the console (R102); the index of the next free draw. -/
  conReads : Nat
  /-- The bytes written to the console, the first one first (R102). -/
  conOut : List Byte
deriving DecidableEq, Repr

/-- Why the machine has no next state. A fatal error of the spec is not among them: it has a next state,
with the record in `fault` (R173). -/
inductive Fault where
  /-- `step`, when `halted` is true: the machine has no step (R91). Safe: nothing can be proved of a further
  state. -/
  | halted
  /-- `step`, when `fault` is not NONE: the machine has no step (R91, R174). Safe, as above. -/
  | faulted
  /-- TRAP GETC, when the console never supplies a byte: the run is blocked for ever (R100, R151). Only on
  `ConsoleTail.silent`. Safe, as above. -/
  | consoleBlocked
deriving DecidableEq, Repr

/-- Why an instruction has no meaning in the model. -/
inductive Refusal where
  /-- `exec`'s arm of an instruction that has no meaning yet; no arm is one. Safe. -/
  | notModelled (mnemonic : String)
deriving DecidableEq, Repr

/-- What one step answers. -/
abbrev Result := Host.Outcome State Fault Refusal

/-- The state right after reset (R37, R190): every parameter at its default of R8, nothing loaded. The
values of `pc`, `regs`, `cond` and `mem` are the spec's defaults for what the source leaves open: DESIGN
CHOICE (log 2, 3, 4, 5); `halted` and `fault` by D10 (log 9); the console's stream unknown (log 10). -/
def State.reset : State where
  regs := Config.launchParams.initRegs
  pc := Config.launchParams.origin
  cond := Config.launchParams.initCond
  mem := []
  halted := false
  fault := none
  params := Config.launchParams.params
  conIn := Config.launchParams.conIn
  conTail := Config.launchParams.conTail
  conReads := 0
  conOut := []

end Sys2Proof.Machine
end

