-- ==== Sys2Proof/Machine/Ops.lean ====
section
/-! DEFINITION. The named operations over memory, registers, the console and the fault record (00_scope.md
R12, R13, R14): every reading and writing of State goes through them. -/

namespace Sys2Proof.Machine

/-! ### Memory (20_memory.md) -/

/-- What an address that is not listed reads as: 0x0000, `INIT_MEM`'s default outside the loader's image.
DESIGN CHOICE (the spec's D9; log 5). -/
def Memory.unlisted : Word := 0x0000#16

/-- The number of cells: addresses 0 to 65535 (R40). -/
def Memory.size : Nat := 65536

/-- The cell at an address. -/
def Memory.read : Memory → Nat → Word
  | [], _ => Memory.unlisted
  | (k, v) :: m, a => if k = a then v else Memory.read m a

/-- The memory with the address no longer listed. -/
def Memory.erase : Memory → Nat → Memory
  | [], _ => []
  | (k, v) :: m, a => if k = a then Memory.erase m a else (k, v) :: Memory.erase m a

/-- The memory with the cell listed in its place, where the address is not listed yet. -/
def Memory.insert : Memory → Nat → Word → Memory
  | [], a, v => [(a, v)]
  | (k, w) :: m, a, v => if a < k then (a, v) :: (k, w) :: m else (k, w) :: Memory.insert m a v

/-- The memory after the cell at an address is set. The canonical form is kept: the value an unlisted
address reads as is stored by listing nothing. -/
def Memory.write (m : Memory) (a : Nat) (v : Word) : Memory :=
  if v = Memory.unlisted then Memory.erase m a else Memory.insert (Memory.erase m a) a v

/-- The canonical form from address `lo` on. -/
def Memory.wfFrom (lo : Nat) : Memory → Bool
  | [] => true
  | (k, v) :: m => decide (lo ≤ k) && decide (k < Memory.size) && v != Memory.unlisted && Memory.wfFrom (k + 1) m

/-- The canonical form: addresses strictly rising and below 65536, no cell that holds what an unlisted
address reads as. -/
def Memory.wf (m : Memory) : Bool := Memory.wfFrom 0 m

/-- The loader's raw writes, in order (R55). -/
def Memory.load : Memory → List (Word × Word) → Memory
  | m, [] => m
  | m, (a, v) :: image => Memory.load (m.write a.toNat v) image

/-- `MemRead(addr, 1)` (R13): every address names one cell, so it never fails (R44, R48). -/
def State.memRead (s : State) (a : Word) : Word := s.mem.read a.toNat

/-- `MemWrite(addr, 1, v)` (R13): one whole cell, bits unchanged (R41). -/
def State.memWrite (s : State) (a v : Word) : State := { s with mem := s.mem.write a.toNat v }

/-! ### Registers, pc, cond, halted (R12) -/

/-- `x[r]`. No register is hardwired (R21). -/
def State.reg (s : State) (r : Reg) : Word := s.regs[r]

/-- `x[r] <- v`. -/
def State.setReg (s : State) (r : Reg) (v : Word) : State := { s with regs := s.regs.set r v }

/-- `pc <- target`. -/
def State.setPc (s : State) (target : Word) : State := { s with pc := target }

/-- Write the three condition flags. -/
def State.setCond (s : State) (c : Cond) : State := { s with cond := c }

/-- `halted <- true` (R31). -/
def State.halt (s : State) : State := { s with halted := true }

/-! ### The console (R14, R90) -/

/-- What `ConsoleRead()` finds. -/
inductive ConsoleReply where
  | byte (b : Byte)
  /-- END: end of stream or error. -/
  | endOfStream
  /-- The console never answers. -/
  | blocks
deriving DecidableEq, Repr

/-- `ConsoleRead()`: the next known byte; after the last one, what the tail says (R99, R151). -/
def State.consoleRead (s : State) : ConsoleReply :=
  match s.conIn with
  | b :: _ => .byte b
  | [] =>
    match s.conTail with
    | .ended => .endOfStream
    | .silent => .blocks
    | .free =>
      match Config.consoleDraw s.conReads with
      | some b => .byte b
      | none => .endOfStream

/-- A byte has been consumed from the console (R102). -/
def State.consoleTake (s : State) : State := { s with conIn := s.conIn.tail, conReads := s.conReads + 1 }

/-- `ConsoleWrite(bs)`: it cannot fail (D20; log 21). -/
def State.consoleWrite (s : State) (bs : List Byte) : State := { s with conOut := s.conOut ++ bs }

/-! ### Raising a fault (60_exceptions.md) -/

/-- The numeric code of a fault (R171). -/
def FaultKind.code : FaultKind → Nat
  | .rtiUnimplemented => 1
  | .trapUnimplemented => 2
  | .reservedOpcode => 3
  | .consoleInputEnd => 4
  | .putsOverrun => 5
  | .illegalEncoding => 6

/-- The address of the instruction that is executing: `pc - 1`, since the fetch has incremented `pc`
(R93, R172). -/
def State.instrAddr (s : State) : Word := s.pc - 1#16

/-- Taking a fault, given the instruction's word: the record is written and NOTHING else changes (R173);
`pc` already holds `addr + 1`. -/
def State.raiseWord (s : State) (kind : FaultKind) (word : Word) (info : FaultInfo) : State :=
  { s with fault := some { kind := kind, word := word, addr := s.instrAddr, info := info } }

/-- `raise <Fault>(info)` (R14) by an instruction that does not carry its word: the word is the one at the
address it was fetched from. No instruction that raises has written memory before, so it is the fetched
word (R172). DEDUCED (log 14). -/
def State.raise (s : State) (kind : FaultKind) (info : FaultInfo) : State :=
  s.raiseWord kind (s.memRead s.instrAddr) info

end Sys2Proof.Machine
end

