-- ==== Sys2Proof/Machine/Flags.lean ====
section
/-! DEFINITION. The condition-code helper (40_cycle.md R97) and BR's test of the flags (42_control.md R120). -/

namespace Sys2Proof.Machine

/-- The flags of a 16-bit result, read as signed: n = v < 0, z = v = 0, p = v > 0 (R97). -/
def condOf (v : Word) : Cond where
  n := decide (v.toInt < 0)
  z := decide (v = 0x0000#16)
  p := decide (0 < v.toInt)

/-- `setcc(v)` (R97). -/
def State.setcc (s : State) (v : Word) : State := s.setCond (condOf v)

/-- BR's mask n, z, p meets the condition codes (R120). -/
def branchTaken (n z p : Bool) (c : Cond) : Bool := (n && c.n) || (z && c.z) || (p && c.p)

end Sys2Proof.Machine
end

