-- ==== Sys2Proof/Machine/Operands.lean ====
section
/-! DEFINITION. The operand forms: effective addresses (40_cycle.md R98), the zero and low-byte extensions
(00_scope.md R11, 20_memory.md R43), the result written to DR with its flags, and the link to R7
(42_control.md R119). -/

namespace Sys2Proof.Machine

/-- `pcrel(off) = pc + off`: `pc` is the incremented PC, and the sum wraps (R98, R48). -/
def State.pcrel (s : State) (off : Word) : Word := s.pc + off

/-- `based(b, off) = x[b] + off`, wrapping (R98, R48). -/
def State.based (s : State) (b : Reg) (off : Word) : Word := s.reg b + off

/-- The pointer that LDI and STI follow: the cell at `pcrel(off)`, used as an address (R131, R141). -/
def State.pointer (s : State) (off : Word) : Word := s.memRead (s.pcrel off)

/-- `zext_8`: the byte in bits[7:0], bits[15:8] zero (R11, R43). -/
def zextByte (b : Byte) : Word := b.setWidth 16

/-- The low byte, bits[7:0]; bits[15:8] are discarded (R43). -/
def lowByte (v : Word) : Byte := v.setWidth 8

/-- `x[dr] <- v; setcc(v)`: how every code-setting instruction delivers its result (R28). -/
def State.writeResult (s : State) (dr : Reg) (v : Word) : State := (s.setReg dr v).setcc v

/-- `x[7] <- pc`: JSR and JSRR save the incremented PC in R7 (R119). -/
def State.link (s : State) : State := s.setReg 7 s.pc

end Sys2Proof.Machine
end

