-- ==== Sys2Proof/Machine/Control.lean ====
section
/-! DEFINITION. The control-transfer instructions (42_control.md). None writes the condition codes, and every
16-bit target is legal. -/

namespace Sys2Proof.Machine

/-- BR: R120. Untaken, it changes nothing. -/
def execBr (n z p : Bool) (off : Word) (s : State) : Result :=
  .next (if branchTaken n z p s.cond then s.setPc (s.pcrel off) else s)

/-- JMP: R121, in both modes. -/
def execJmp (base : Reg) (s : State) : Result :=
  match s.params.jmpMode with
  | .add => .next (s.setPc (s.pc + s.reg base))
  | .assign => .next (s.setPc (s.reg base))

/-- JSR: R122. The target is relative to the incremented PC that is saved. -/
def execJsr (off : Word) (s : State) : Result :=
  .next (s.link.setPc (s.pcrel off))

/-- JSRR: R123, in both orders; the PC is assigned in either. -/
def execJsrr (base : Reg) (s : State) : Result :=
  match s.params.jsrrOrder with
  | .linkFirst => .next (s.link.setPc (s.link.reg base))
  | .readFirst => .next (s.link.setPc (s.reg base))

end Sys2Proof.Machine
end

