-- ==== Sys2Proof/Machine/Load.lean ====
section
/-! DEFINITION. The load instructions (43_load.md). Each writes DR and sets the flags from the value written
(R129); no load can fault. -/

namespace Sys2Proof.Machine

/-- LD: R130. -/
def execLd (dr : Reg) (off : Word) (s : State) : Result :=
  .next (s.writeResult dr (s.memRead (s.pcrel off)))

/-- LDI: R131. -/
def execLdi (dr : Reg) (off : Word) (s : State) : Result :=
  .next (s.writeResult dr (s.memRead (s.pointer off)))

/-- LDR: R132. -/
def execLdr (dr base : Reg) (off : Word) (s : State) : Result :=
  .next (s.writeResult dr (s.memRead (s.based base off)))

/-- LEA: R133. No memory access; the flags are set from the address. -/
def execLea (dr : Reg) (off : Word) (s : State) : Result :=
  .next (s.writeResult dr (s.pcrel off))

end Sys2Proof.Machine
end

