-- ==== Sys2Proof/Machine/Operate.lean ====
section
/-! DEFINITION. The operate instructions (41_operate.md). Sources are read before DR is written, and
arithmetic is modulo 2^16 (R109). -/

namespace Sys2Proof.Machine

/-- ADD: R110. -/
def execAdd (dr sr1 sr2 : Reg) (s : State) : Result :=
  .next (s.writeResult dr (s.reg sr1 + s.reg sr2))

/-- ADDi: R111. -/
def execAddi (dr sr1 : Reg) (imm : Word) (s : State) : Result :=
  .next (s.writeResult dr (s.reg sr1 + imm))

/-- AND: R112. -/
def execAnd (dr sr1 sr2 : Reg) (s : State) : Result :=
  .next (s.writeResult dr (s.reg sr1 &&& s.reg sr2))

/-- ANDi: R113. -/
def execAndi (dr sr1 : Reg) (imm : Word) (s : State) : Result :=
  .next (s.writeResult dr (s.reg sr1 &&& imm))

/-- NOT: R114. -/
def execNot (dr sr : Reg) (s : State) : Result :=
  .next (s.writeResult dr (~~~ s.reg sr))

end Sys2Proof.Machine
end

