-- ==== Sys2Proof/Machine/Store.lean ====
section
/-! DEFINITION. The store instructions (44_store.md). None writes a register or the flags, and none can fault
(R139). -/

namespace Sys2Proof.Machine

/-- ST: R140. -/
def execSt (sr : Reg) (off : Word) (s : State) : Result :=
  .next (s.memWrite (s.pcrel off) (s.reg sr))

/-- STI: R141. The pointer is read before the write. -/
def execSti (sr : Reg) (off : Word) (s : State) : Result :=
  .next (s.memWrite (s.pointer off) (s.reg sr))

/-- STR: R142. -/
def execStr (sr base : Reg) (off : Word) (s : State) : Result :=
  .next (s.memWrite (s.based base off) (s.reg sr))

end Sys2Proof.Machine
end

