-- ==== Sys2Proof/Machine/System.lean ====
section
/-! DEFINITION. TRAP and its services, RTI and the reserved opcode (45_trap_system.md). A service changes only
what its row names: R7, the flags and memory keep their values (R150). A fatal error is a next state with
the record in `fault` (R173). -/

namespace Sys2Proof.Machine

/-- TRAP 0x20, GETC: R151. At END no byte is consumed and R0 is unchanged; a console that never answers
blocks the run (R100). -/
def trapGetc (s : State) : Result :=
  match s.consoleRead with
  | .byte b => .next (s.consoleTake.setReg 0 (zextByte b))
  | .endOfStream => .next (s.raise .consoleInputEnd .nothing)
  | .blocks => .fault .consoleBlocked

/-- TRAP 0x21, OUT: R152. -/
def trapOut (s : State) : Result :=
  .next (s.consoleWrite [lowByte (s.reg 0)])

/-- The walk of PUTS from address `a` (R153): the bytes up to the first zero cell, or `none` if 0xFFFF is
passed. The first argument bounds the walk; 65536 cells are all there are, so it never runs out
(`putsWalk_fuel`, Laws/Exec.lean). -/
def putsWalk (m : Memory) : Nat → Word → Option (List Byte)
  | 0, _ => none
  | fuel + 1, a =>
    if m.read a.toNat = 0x0000#16 then some []
    else if a = 0xFFFF#16 then none
    else
      match putsWalk m fuel (a + 1#16) with
      | some bs => some (lowByte (m.read a.toNat) :: bs)
      | none => none

/-- TRAP 0x22, PUTS: R153. The bytes are written in one ConsoleWrite, once the terminator is found. -/
def trapPuts (s : State) : Result :=
  match putsWalk s.mem Memory.size (s.reg 0) with
  | some bs => .next (s.consoleWrite bs)
  | none => .next (s.raise .putsOverrun (.start (s.reg 0)))

/-- TRAP 0x25, HALT: R154. -/
def trapHalt (s : State) : Result := .next s.halt

/-- TRAP with a vector outside the table: R155. -/
def trapOther (vect : Byte) (s : State) : Result :=
  .next (s.raise .trapUnimplemented (.vect vect))

/-- TRAP: R150, the dispatch on the vector. -/
def execTrap (vect : Byte) (s : State) : Result :=
  if vect = 0x20#8 then trapGetc s
  else if vect = 0x21#8 then trapOut s
  else if vect = 0x22#8 then trapPuts s
  else if vect = 0x25#8 then trapHalt s
  else trapOther vect s

/-- RTI: R156, always fatal. -/
def execRti (s : State) : Result := .next (s.raise .rtiUnimplemented .nothing)

/-- RESERVED: R157, always fatal; the instruction carries its word. -/
def execReserved (word : Word) (s : State) : Result :=
  .next (s.raiseWord .reservedOpcode word .nothing)

end Sys2Proof.Machine
end

