-- ==== Sys2Proof/Machine/Cycle.lean ====
section
/-! DEFINITION. The parts of a step (40_cycle.md R91 to R95): when the machine has no step, the fetch with the
increment of `pc`, and the decoded instruction's execution behind the check of `STRICT_FIXED_BITS`. Also the
launch of a program (70_reset_and_hazards.md R190). -/

namespace Sys2Proof.Machine

/-- Why the machine has no step: it has halted, or a fault has ended the run (R91). -/
def State.stopReason (s : State) : Option Fault :=
  if s.halted then some .halted
  else if s.fault.isSome then some .faulted
  else none

/-- The fetch, `w <- MemRead(pc, 1)` (R92). -/
def State.fetchWord (s : State) : Word := s.memRead s.pc

/-- `pc <- a + 1`, before execution, modulo 2^16 (R93, R25, R26). -/
def State.advance (s : State) : State := s.setPc (s.pc + 1#16)

/-- The word is one that `STRICT_FIXED_BITS` does not let through (R71, R95). -/
def State.rejectsWord (s : State) (w : Word) : Bool := s.params.strictFixedBits && !canonical w

/-- Decode and execute a fetched word, `pc` already advanced (R94, R95): under `STRICT_FIXED_BITS` the check
runs first (R175). -/
def executeWord (w : Word) (s : State) : Result :=
  if s.rejectsWord w then .next (s.raiseWord .illegalEncoding w .nothing)
  else exec (decode w) s

/-- One whole fetch/execute cycle of an enabled machine (R92 to R95). -/
def cycle (s : State) : Result := executeWord s.fetchWord s.advance

/-- The launch of R190: every component at its reset value, the loader's words written in order over memory
of 0x0000, `pc = ORIGIN`. -/
def State.launch (p : LaunchParams) (image : List (Word × Word)) : State where
  regs := p.initRegs
  pc := p.origin
  cond := p.initCond
  mem := Memory.load [] image
  halted := false
  fault := none
  params := p.params
  conIn := p.conIn
  conTail := p.conTail
  conReads := 0
  conOut := []

end Sys2Proof.Machine
end

