-- ==== Sys2Proof/Machine/Step.lean ====
section
/-! DEFINITION. One step of the machine (40_cycle.md R91 to R96), and a word placed where the next step
fetches. -/

namespace Sys2Proof.Machine

/-- One step: none where the machine is halted or faulted (R91), else the whole cycle, atomically (R96). -/
def step (s : State) : Host.Outcome State Fault Refusal :=
  match s.stopReason with
  | some r => .fault r
  | none => cycle s

/-- The state with an instruction's word stored where the next step fetches, at `pc`: the loader's raw write
(20_memory.md R55). Every instruction is one cell (R60), so the bits above `nbits` are zero. -/
def State.withFetchWord (s : State) (nbits w : Nat) : State :=
  s.memWrite s.pc (BitVec.ofNat 16 (w % 2 ^ nbits))

end Sys2Proof.Machine
end

