-- ==== Sys2Proof/Safety.lean ====
section
/-! DEFINITION. What claims about runs are stated in: when a step is enabled and how a run ends (40_cycle.md
R91, R100), and the invariant of the machine's states. -/

namespace Sys2Proof.Machine

/-- A step is enabled: neither halted nor faulted (R91). -/
abbrev State.Enabled (s : State) : Prop := s.halted = false ∧ s.fault = none

/-- The only successful end of a run (R100 "halted"). -/
abbrev State.Completed (s : State) : Prop := s.halted = true ∧ s.fault = none

/-- An aborted run (R100 "faulted"). -/
abbrev State.Aborted (s : State) : Prop := s.fault ≠ none

/-- Exactly one flag is set (10_state.md R30). -/
def OneHot (c : Cond) : Prop :=
  (c.n = true ∧ c.z = false ∧ c.p = false) ∨ (c.n = false ∧ c.z = true ∧ c.p = false) ∨
    (c.n = false ∧ c.z = false ∧ c.p = true)

/-- A trap vector of the service table (45_trap_system.md R150). -/
abbrev implementedVector (v : Byte) : Prop := v = 0x20#8 ∨ v = 0x21#8 ∨ v = 0x22#8 ∨ v = 0x25#8

/-- The cause and the recorded datum that R171 gives for the kind, in the state the fault left. -/
def FaultRecord.Explained (r : FaultRecord) (s : State) : Prop :=
  match r.kind with
  | .rtiUnimplemented => decode r.word = .rti ∧ r.info = .nothing
  | .trapUnimplemented => ∃ v, decode r.word = .trap v ∧ ¬ implementedVector v ∧ r.info = .vect v
  | .reservedOpcode => decode r.word = .reserved r.word ∧ r.info = .nothing
  | .consoleInputEnd => decode r.word = .trap 0x20#8 ∧ r.info = .nothing
  | .putsOverrun =>
    decode r.word = .trap 0x22#8 ∧ r.info = .start (s.reg 0) ∧
      ∀ a : Word, (s.reg 0).toNat ≤ a.toNat → s.memRead a ≠ 0x0000#16
  | .illegalEncoding => s.params.strictFixedBits = true ∧ canonical r.word = false ∧ r.info = .nothing

/-- The invariant that every step keeps: memory is in canonical form; a run has not both halted and faulted
(R100); and a recorded fault is precise: it names the word and the address of the instruction just before
`pc` (R172, R173) and has the cause R171 gives its kind. -/
structure State.Inv (s : State) : Prop where
  mem_wf : s.mem.wf = true
  one_end : ¬ (s.halted = true ∧ s.fault ≠ none)
  precise : ∀ r, s.fault = some r → s.pc = r.addr + 1#16 ∧ s.memRead r.addr = r.word ∧ r.Explained s

end Sys2Proof.Machine
end

