-- ==== Sys2Proof/Certificates/Slice0/Obligations.lean ====
section
/-! DEFINITION. The statements for the provers: what the numbered rules of the spec say the machine does, each as
a proposition about the model. The first part names the shapes they share: what is left unchanged, and the
five ways an instruction ends. -/

open Sys2Proof Sys2Proof.Machine

namespace Sys2Proof.Claims

/-! ### What is left unchanged -/

/-- Every register reads as before. -/
def SameRegisters (s t : State) : Prop := ∀ q : Reg, t.reg q = s.reg q

/-- Every register but `r` reads as before. -/
def SameRegistersBut (r : Reg) (s t : State) : Prop := ∀ q : Reg, q ≠ r → t.reg q = s.reg q

/-- Every cell of memory reads as before. -/
def SameMemory (s t : State) : Prop := ∀ a : Word, t.memRead a = s.memRead a

/-- Every cell of memory but the one at `a` reads as before. -/
def SameMemoryBut (a : Word) (s t : State) : Prop := ∀ b : Word, b ≠ a → t.memRead b = s.memRead b

/-- Neither halted nor faulted anew. -/
def SameStatus (s t : State) : Prop := t.halted = s.halted ∧ t.fault = s.fault

/-- Nothing read from the console. -/
def SameConsoleInput (s t : State) : Prop :=
  t.conIn = s.conIn ∧ t.conTail = s.conTail ∧ t.conReads = s.conReads

/-- Nothing read from the console and nothing written to it. -/
def SameConsole (s t : State) : Prop := SameConsoleInput s t ∧ t.conOut = s.conOut

/-! ### How an instruction ends -/

/-- The three flags give the sign of `v`, read as a signed number (R97). -/
def FlagsOf (v : Word) (c : Cond) : Prop :=
  (c.n = true ↔ v.toInt < 0) ∧ (c.z = true ↔ v = 0x0000#16) ∧ (c.p = true ↔ 0 < v.toInt)

/-- The instruction completes with `v` in register `dr` and the flags from `v`; nothing else changes. -/
def Delivers (i : Instr) (s : State) (dr : Reg) (v : Word) : Prop :=
  ∃ t, exec i s = .next t ∧ t.reg dr = v ∧ FlagsOf v t.cond ∧
    SameRegistersBut dr s t ∧ t.pc = s.pc ∧ SameMemory s t ∧ SameStatus s t ∧ SameConsole s t ∧
    t.params = s.params

/-- The instruction completes with `pc` at `target`; nothing else changes. -/
def GoesTo (i : Instr) (s : State) (target : Word) : Prop :=
  ∃ t, exec i s = .next t ∧ t.pc = target ∧
    SameRegisters s t ∧ t.cond = s.cond ∧ SameMemory s t ∧ SameStatus s t ∧ SameConsole s t ∧
    t.params = s.params

/-- The instruction completes with the incremented PC in R7 and `pc` at `target`; nothing else changes. -/
def Calls (i : Instr) (s : State) (target : Word) : Prop :=
  ∃ t, exec i s = .next t ∧ t.pc = target ∧ t.reg 7 = s.pc ∧
    SameRegistersBut 7 s t ∧ t.cond = s.cond ∧ SameMemory s t ∧ SameStatus s t ∧ SameConsole s t ∧
    t.params = s.params

/-- The instruction completes with `v` in the cell at `a`; nothing else changes. -/
def Stores (i : Instr) (s : State) (a v : Word) : Prop :=
  ∃ t, exec i s = .next t ∧ t.memRead a = v ∧ SameMemoryBut a s t ∧
    SameRegisters s t ∧ t.pc = s.pc ∧ t.cond = s.cond ∧ SameStatus s t ∧ SameConsole s t ∧
    t.params = s.params

/-- The instruction completes with the bytes written to the console; nothing else changes. -/
def Writes (i : Instr) (s : State) (bs : List Byte) : Prop :=
  ∃ t, exec i s = .next t ∧ t.conOut = s.conOut ++ bs ∧ SameConsoleInput s t ∧
    SameRegisters s t ∧ t.pc = s.pc ∧ t.cond = s.cond ∧ SameMemory s t ∧ SameStatus s t ∧
    t.params = s.params

/-- The instruction completes by recording the fault; nothing else changes (R173). `pc` is the incremented
PC, so the instruction's address is `pc - 1` (R172). -/
def Raises (i : Instr) (s : State) (kind : FaultKind) (word : Word) (info : FaultInfo) : Prop :=
  ∃ t, exec i s = .next t ∧
    t.fault = some { kind := kind, word := word, addr := s.pc - 1#16, info := info } ∧
    SameRegisters s t ∧ t.pc = s.pc ∧ t.cond = s.cond ∧ SameMemory s t ∧ t.halted = s.halted ∧
    SameConsole s t ∧ t.params = s.params

/-! ### A step -/

/-- The word the next step fetches. -/
abbrev fetched (s : State) : Word := s.memRead s.pc

/-- `STRICT_FIXED_BITS` lets the fetched word through (R71). -/
abbrev Accepts (s : State) : Prop := s.params.strictFixedBits = true → canonical (fetched s) = true

/-- The step ends with the fault recorded for the fetched word and its address, and `pc` incremented; nothing
else changes (R172, R173). -/
def StepRaises (s : State) (kind : FaultKind) (info : FaultInfo) : Prop :=
  ∃ t, step s = .next t ∧
    t.fault = some { kind := kind, word := fetched s, addr := s.pc, info := info } ∧
    t.pc = s.pc + 1#16 ∧ SameRegisters s t ∧ t.cond = s.cond ∧ SameMemory s t ∧ t.halted = s.halted ∧
    SameConsole s t ∧ t.params = s.params

/-! ### Fields of a word -/

/-- The three bits from bit `lo` up, as a register index. -/
def regAt (w : Word) (lo : Nat) : Reg := (w.extractLsb' lo 3).toFin

/-- The low `k` bits, sign-extended to 16. -/
def signedLow (w : Word) (k : Nat) : Word := (w.extractLsb' 0 k).signExtend 16

/-- A sign-extended `k`-bit field takes the values -2^(k-1) to 2^(k-1) - 1. -/
def SignedRange (k : Nat) : Prop :=
  ∀ w : Word, -(2 ^ (k - 1) : Int) ≤ (signedLow w k).toInt ∧ (signedLow w k).toInt < 2 ^ (k - 1)

/-! ### What the spec's lists say of each instruction -/

/-- DR of the nine instructions that write `cond` (R28). -/
def codeSetterDest : Instr → Option Reg
  | .add dr _ _ | .addi dr _ _ | .and_ dr _ _ | .andi dr _ _ | .not_ dr _ => some dr
  | .ld dr _ | .ldi dr _ | .ldr dr _ _ | .lea dr _ => some dr
  | _ => none

/-- The register an instruction writes (R23). -/
def writtenReg : Instr → Option Reg
  | .jsr _ | .jsrr _ => some 7
  | .trap v => if v = 0x20#8 then some 0 else none
  | i => codeSetterDest i

/-- The cell an instruction writes, in the state it executes in (R42, R140 to R142). -/
def writtenCell (s : State) : Instr → Option Word
  | .st _ off => some (s.pc + off)
  | .sti _ off => some (s.memRead (s.pc + off))
  | .str _ base off => some (s.reg base + off)
  | _ => none

/-- The control-transfer instructions (R119). -/
def isControl : Instr → Bool
  | .br _ _ _ _ | .jmp _ | .jsr _ | .jsrr _ => true
  | _ => false

/-- The instructions that access no memory but for their fetch (R42): all but the loads, the stores and PUTS. -/
def makesNoDataAccess : Instr → Bool
  | .ld _ _ | .ldi _ _ | .ldr _ _ _ | .st _ _ | .sti _ _ | .str _ _ _ => false
  | .trap v => v != 0x22#8
  | .add _ _ _ | .addi _ _ _ | .and_ _ _ _ | .andi _ _ _ | .not_ _ _ | .lea _ _ => true
  | .br _ _ _ _ | .jmp _ | .jsr _ | .jsrr _ | .rti | .reserved _ => true

/-- The instructions that make no data access, can raise a fault and do not carry their own word: the model
takes the record's word from the cell they were fetched from (log 14). -/
def takesRecordWordFromItsCell : Instr → Bool
  | .rti => true
  | .trap v => v != 0x21#8 && v != 0x22#8 && v != 0x25#8
  | _ => false

/-- The outcome with its next state changed by `f`. -/
def mapNext (f : State → State) : Result → Result
  | .next t => .next (f t)
  | .fault r => .fault r
  | .refused r => .refused r

end Sys2Proof.Claims

open Sys2Proof.Claims

/-! ## The Decoder and the encoder (30_encoding.md) -/

/-- Words of every format, written out from R70's formats, decode to the instruction they stand for. -/
def Obligations.WordsOfEveryFormatDecode : Prop :=
  decode 0x1283#16 = .add 1 2 3 ∧ decode 0x127F#16 = .addi 1 1 0xFFFF#16 ∧ decode 0x5042#16 = .and_ 0 1 2 ∧
  decode 0x997F#16 = .not_ 4 5 ∧ decode 0x0BFE#16 = .br true false true 0xFFFE#16 ∧
  decode 0xC080#16 = .jmp 2 ∧ decode 0x4C00#16 = .jsr 0xFC00#16 ∧ decode 0x40C0#16 = .jsrr 3 ∧
  decode 0xA601#16 = .ldi 3 0x0001#16 ∧ decode 0x697F#16 = .ldr 4 5 0xFFFF#16 ∧
  decode 0x739F#16 = .str 1 6 0x001F#16 ∧ decode 0xF025#16 = .trap 0x25#8 ∧ decode 0x8FFF#16 = .rti ∧
  decode 0xDABC#16 = .reserved 0xDABC#16

/-- R76: decoding is total and "returns a value whose opcode matches bits[15:12] of the input"; the opcode
names are those of R69 (the spec's D1), and every decoded value is well formed. -/
def Obligations.DecodingIsTotalAndKeepsTheOpcode : Prop :=
  ∀ w : Word, (decode w).opcode.bits = w.extractLsb' 12 4 ∧ (decode w).wf = true

/-- R62, R64, R65, R66, R68: each field of the decoded value stands at its fixed bits of the word. -/
def Obligations.DecodedFieldsStandAtTheirBits : Prop :=
  ∀ w : Word,
    match decode w with
    | .add dr sr1 sr2 => w.getLsbD 5 = false ∧ dr = regAt w 9 ∧ sr1 = regAt w 6 ∧ sr2 = regAt w 0
    | .and_ dr sr1 sr2 => w.getLsbD 5 = false ∧ dr = regAt w 9 ∧ sr1 = regAt w 6 ∧ sr2 = regAt w 0
    | .addi dr sr1 imm => w.getLsbD 5 = true ∧ dr = regAt w 9 ∧ sr1 = regAt w 6 ∧ imm = signedLow w 5
    | .andi dr sr1 imm => w.getLsbD 5 = true ∧ dr = regAt w 9 ∧ sr1 = regAt w 6 ∧ imm = signedLow w 5
    | .not_ dr sr => dr = regAt w 9 ∧ sr = regAt w 6
    | .br n z p off => n = w.getLsbD 11 ∧ z = w.getLsbD 10 ∧ p = w.getLsbD 9 ∧ off = signedLow w 9
    | .jmp base => base = regAt w 6
    | .jsr off => w.extractLsb' 12 4 = 0b0100#4 ∧ w.getLsbD 11 = true ∧ off = signedLow w 11
    | .jsrr base => w.extractLsb' 12 4 = 0b0100#4 ∧ w.getLsbD 11 = false ∧ base = regAt w 6
    | .ld dr off | .ldi dr off | .lea dr off => dr = regAt w 9 ∧ off = signedLow w 9
    | .st sr off | .sti sr off => sr = regAt w 9 ∧ off = signedLow w 9
    | .ldr dr base off => dr = regAt w 9 ∧ base = regAt w 6 ∧ off = signedLow w 6
    | .str sr base off => sr = regAt w 9 ∧ base = regAt w 6 ∧ off = signedLow w 6
    | .trap vect => vect = w.extractLsb' 0 8
    | .rti => True
    | .reserved word => word = w

/-- R11: the sign extension copies the field's top bit into every higher bit; the zero extension of a byte
clears bits[15:8]. The model's `sextField` and `zextByte` are these. -/
def Obligations.ExtensionsFillTheHighBits : Prop :=
  (∀ (w : Word) (k i : Nat), 1 ≤ k → k ≤ 16 → i < 16 →
    (sextField w k).getLsbD i = if i < k then w.getLsbD i else w.getLsbD (k - 1)) ∧
  (∀ (b : Byte) (i : Nat), (zextByte b).getLsbD i = (decide (i < 8) && b.getLsbD i))

/-- R71 (the spec's D3): two words that differ only in bits marked x in R70 decode to the same variant. -/
def Obligations.UnreadBitsDoNotMatter : Prop :=
  ∀ w v : Word, w.extractLsb' 12 4 = v.extractLsb' 12 4 →
    match w.extractLsb' 12 4 with
    | 0b0001#4 | 0b0101#4 =>
      w.getLsbD 5 = false → w &&& 0x0FE7#16 = v &&& 0x0FE7#16 → decode w = decode v
    | 0b1001#4 => w &&& 0x0FC0#16 = v &&& 0x0FC0#16 → decode w = decode v
    | 0b0100#4 => w.getLsbD 11 = false → w &&& 0x09C0#16 = v &&& 0x09C0#16 → decode w = decode v
    | 0b1100#4 => w &&& 0x01C0#16 = v &&& 0x01C0#16 → decode w = decode v
    | 0b1111#4 => w &&& 0x00FF#16 = v &&& 0x00FF#16 → decode w = decode v
    | 0b1000#4 => decode w = decode v
    | _ => True

/-- Every word belongs to exactly one row of opcode_table.json; it is the decoded instruction's; and the row's
canonical mask and match say what `STRICT_FIXED_BITS` accepts (R70, R71; the spec's G1, G4). -/
def Obligations.EveryWordHasOneTableRow : Prop :=
  ∀ w : Word, ∃ r ∈ opcodeTable, r.covers w = true ∧ r.mnemonic = (decode w).mnemonic ∧
    r.isCanonical w = canonical w ∧ ∀ r' ∈ opcodeTable, r'.covers w = true → r' = r

/-- Decoding the word of a well-formed instruction gives the instruction back, for every instruction and
every operand its encoding admits. -/
def Obligations.DecodeOfEncode : Prop := ∀ i : Instr, i.wf = true → decode (encode i) = i

/-- Encoding what a word decodes to gives the word back exactly when its unread bits are canonical. -/
def Obligations.EncodeOfDecodeOnCanonicalWords : Prop :=
  ∀ w : Word, encode (decode w) = w ↔ canonical w = true

/-! ## The operate instructions (41_operate.md) -/

/-- R110. -/
def Obligations.AddWritesTheWrappedSum : Prop :=
  (∀ w : Word, w.extractLsb' 12 4 = 0b0001#4 → w.getLsbD 5 = false →
    decode w = .add (regAt w 9) (regAt w 6) (regAt w 0)) ∧
  ∀ (dr sr1 sr2 : Reg) (s : State), Delivers (.add dr sr1 sr2) s dr (s.reg sr1 + s.reg sr2)

/-- R111. -/
def Obligations.AddiAddsTheSignExtendedImmediate : Prop :=
  (∀ w : Word, w.extractLsb' 12 4 = 0b0001#4 → w.getLsbD 5 = true →
    decode w = .addi (regAt w 9) (regAt w 6) (signedLow w 5)) ∧ SignedRange 5 ∧
  ∀ (dr sr1 : Reg) (imm : Word) (s : State), Delivers (.addi dr sr1 imm) s dr (s.reg sr1 + imm)

/-- R112. -/
def Obligations.AndWritesTheBitwiseAnd : Prop :=
  (∀ w : Word, w.extractLsb' 12 4 = 0b0101#4 → w.getLsbD 5 = false →
    decode w = .and_ (regAt w 9) (regAt w 6) (regAt w 0)) ∧
  ∀ (dr sr1 sr2 : Reg) (s : State), Delivers (.and_ dr sr1 sr2) s dr (s.reg sr1 &&& s.reg sr2)

/-- R113. -/
def Obligations.AndiMasksWithTheSignExtendedImmediate : Prop :=
  (∀ w : Word, w.extractLsb' 12 4 = 0b0101#4 → w.getLsbD 5 = true →
    decode w = .andi (regAt w 9) (regAt w 6) (signedLow w 5)) ∧ SignedRange 5 ∧
  ∀ (dr sr1 : Reg) (imm : Word) (s : State), Delivers (.andi dr sr1 imm) s dr (s.reg sr1 &&& imm)

/-- R114, with its strict form: under `STRICT_FIXED_BITS` a word whose bits[5:0] are not 111111 raises
IllegalEncoding. -/
def Obligations.NotWritesTheComplement : Prop :=
  (∀ w : Word, w.extractLsb' 12 4 = 0b1001#4 → decode w = .not_ (regAt w 9) (regAt w 6)) ∧
  (∀ (dr sr : Reg) (s : State), Delivers (.not_ dr sr) s dr (~~~ s.reg sr)) ∧
  (∀ s : State, s.Enabled → s.params.strictFixedBits = true →
    (fetched s).extractLsb' 12 4 = 0b1001#4 → (fetched s).extractLsb' 0 6 ≠ 0b111111#6 →
    StepRaises s .illegalEncoding .nothing)

/-- R109: "Subtraction is written NOT, then ADD #1, then ADD." Derived from R110, R111 and R114. The three are
executed in turn, without a fetch between them, so `pc` stays too. -/
def Obligations.NotThenAddOneThenAddSubtracts : Prop :=
  ∀ (d x y : Reg) (s : State), d ≠ x →
    ∃ t₁ t₂ t₃, exec (.not_ d y) s = .next t₁ ∧ exec (.addi d d 0x0001#16) t₁ = .next t₂ ∧
      exec (.add d x d) t₂ = .next t₃ ∧ t₃.reg d = s.reg x - s.reg y ∧
      FlagsOf (s.reg x - s.reg y) t₃.cond ∧ SameRegistersBut d s t₃ ∧ t₃.pc = s.pc ∧ SameMemory s t₃ ∧
      SameStatus s t₃ ∧ SameConsole s t₃ ∧ t₃.params = s.params

/-! ## The control-transfer instructions (42_control.md) -/

/-- R120. -/
def Obligations.BrBranchesIffTheMaskMeetsTheFlags : Prop :=
  (∀ w : Word, w.extractLsb' 12 4 = 0b0000#4 →
    decode w = .br (w.getLsbD 11) (w.getLsbD 10) (w.getLsbD 9) (signedLow w 9)) ∧ SignedRange 9 ∧
  ∀ (n z p : Bool) (off : Word) (s : State),
    ((n = true ∧ s.cond.n = true) ∨ (z = true ∧ s.cond.z = true) ∨ (p = true ∧ s.cond.p = true) →
      GoesTo (.br n z p off) s (s.pc + off)) ∧
    (¬ ((n = true ∧ s.cond.n = true) ∨ (z = true ∧ s.cond.z = true) ∨ (p = true ∧ s.cond.p = true)) →
      GoesTo (.br n z p off) s s.pc)

/-- R121 under both values of `JMP_MODE`, the spec's parameter (D4; log 6). -/
def Obligations.JmpAddsOrAssigns : Prop :=
  (∀ w : Word, w.extractLsb' 12 4 = 0b1100#4 → decode w = .jmp (regAt w 6)) ∧
  ∀ (base : Reg) (s : State),
    (s.params.jmpMode = .add → GoesTo (.jmp base) s (s.pc + s.reg base)) ∧
    (s.params.jmpMode = .assign → GoesTo (.jmp base) s (s.reg base))

/-- R122. -/
def Obligations.JsrLinksAndBranches : Prop :=
  (∀ w : Word, w.extractLsb' 12 4 = 0b0100#4 → w.getLsbD 11 = true → decode w = .jsr (signedLow w 11)) ∧
  SignedRange 11 ∧
  ∀ (off : Word) (s : State), Calls (.jsr off) s (s.pc + off)

/-- R123 under both values of `JSRR_ORDER`, the spec's parameter (D5; log 7): the two differ only for
BaseR = R7, where LINK_FIRST goes to the incremented PC. -/
def Obligations.JsrrLinksAndAssigns : Prop :=
  (∀ w : Word, w.extractLsb' 12 4 = 0b0100#4 → w.getLsbD 11 = false → decode w = .jsrr (regAt w 6)) ∧
  ∀ (base : Reg) (s : State),
    (s.params.jsrrOrder = .readFirst → Calls (.jsrr base) s (s.reg base)) ∧
    (s.params.jsrrOrder = .linkFirst → base ≠ 7 → Calls (.jsrr base) s (s.reg base)) ∧
    (s.params.jsrrOrder = .linkFirst → base = 7 → Calls (.jsrr base) s s.pc)

/-- R74: a BR word with mask 000, 0x0000 among them, only increments the PC, whatever
`STRICT_FIXED_BITS`. -/
def Obligations.BrWithEmptyMaskIsANoOp : Prop :=
  ∀ s : State, s.Enabled → (fetched s).extractLsb' 9 7 = 0b0000000#7 →
    ∃ t, step s = .next t ∧ t.pc = s.pc + 1#16 ∧ SameRegisters s t ∧ t.cond = s.cond ∧ SameMemory s t ∧
      SameStatus s t ∧ SameConsole s t ∧ t.params = s.params

/-! ## The loads (43_load.md) -/

/-- R130. -/
def Obligations.LdLoadsTheCell : Prop :=
  (∀ w : Word, w.extractLsb' 12 4 = 0b0010#4 → decode w = .ld (regAt w 9) (signedLow w 9)) ∧ SignedRange 9 ∧
  ∀ (dr : Reg) (off : Word) (s : State), Delivers (.ld dr off) s dr (s.memRead (s.pc + off))

/-- R131. -/
def Obligations.LdiLoadsThroughThePointer : Prop :=
  (∀ w : Word, w.extractLsb' 12 4 = 0b1010#4 → decode w = .ldi (regAt w 9) (signedLow w 9)) ∧ SignedRange 9 ∧
  ∀ (dr : Reg) (off : Word) (s : State), Delivers (.ldi dr off) s dr (s.memRead (s.memRead (s.pc + off)))

/-- R132. -/
def Obligations.LdrLoadsFromBasePlusOffset : Prop :=
  (∀ w : Word, w.extractLsb' 12 4 = 0b0110#4 →
    decode w = .ldr (regAt w 9) (regAt w 6) (signedLow w 6)) ∧ SignedRange 6 ∧
  ∀ (dr base : Reg) (off : Word) (s : State), Delivers (.ldr dr base off) s dr (s.memRead (s.reg base + off))

/-- R133, with its corner case: the memory's contents never matter. -/
def Obligations.LeaWritesTheAddress : Prop :=
  (∀ w : Word, w.extractLsb' 12 4 = 0b1110#4 → decode w = .lea (regAt w 9) (signedLow w 9)) ∧ SignedRange 9 ∧
  (∀ (dr : Reg) (off : Word) (s : State), Delivers (.lea dr off) s dr (s.pc + off)) ∧
  ∀ (dr : Reg) (off : Word) (s : State) (m : Memory),
    exec (.lea dr off) { s with mem := m } = mapNext (fun t => { t with mem := m }) (exec (.lea dr off) s)

/-! ## The stores (44_store.md) -/

/-- R140: the address stored to is the one the meaning computes, `pc + off`. -/
def Obligations.StStoresAtPcPlusOffset : Prop :=
  (∀ w : Word, w.extractLsb' 12 4 = 0b0011#4 → decode w = .st (regAt w 9) (signedLow w 9)) ∧ SignedRange 9 ∧
  ∀ (sr : Reg) (off : Word) (s : State) (a : Word), s.pcrel off = a →
    a = s.pc + off ∧ Stores (.st sr off) s a (s.reg sr)

/-- R141: the address stored to is the pointer, read before the write. -/
def Obligations.StiStoresThroughThePointer : Prop :=
  (∀ w : Word, w.extractLsb' 12 4 = 0b1011#4 → decode w = .sti (regAt w 9) (signedLow w 9)) ∧ SignedRange 9 ∧
  ∀ (sr : Reg) (off : Word) (s : State) (a : Word), s.pointer off = a →
    a = s.memRead (s.pc + off) ∧ Stores (.sti sr off) s a (s.reg sr)

/-- R142: the address stored to is `x[BaseR] + off`. -/
def Obligations.StrStoresAtBasePlusOffset : Prop :=
  (∀ w : Word, w.extractLsb' 12 4 = 0b0111#4 →
    decode w = .str (regAt w 9) (regAt w 6) (signedLow w 6)) ∧ SignedRange 6 ∧
  ∀ (sr base : Reg) (off : Word) (s : State) (a : Word), s.based base off = a →
    a = s.reg base + off ∧ Stores (.str sr base off) s a (s.reg sr)

/-- R53: "A store made by one instruction is therefore seen by every later fetch": ST with offset 0 replaces
the next instruction, which the next step fetches and, where it is let through, executes. -/
def Obligations.StoreIsSeenByTheNextFetch : Prop :=
  ∀ (s : State) (sr : Reg), s.Enabled → decode (fetched s) = .st sr 0x0000#16 →
    ∃ t, step s = .next t ∧ t.Enabled ∧ t.pc = s.pc + 1#16 ∧ fetched t = s.reg sr ∧
      (Accepts t → step t = exec (decode (s.reg sr)) { t with pc := s.pc + 2#16 })

/-! ## TRAP, RTI and the reserved opcode (45_trap_system.md) -/

/-- R151, and R99's free input: GETC by what the console holds, which is the model's form of the input (log 10).
The record of ConsoleInputEnd is the spec's D13 and D15, the unchanged flags its D12; that the record's word
is the cell at `pc - 1`, in every state, is the model's (DEDUCED, log 14); the stop on a silent console is the
model's form of R100's blocked run (log 11). -/
def Obligations.GetcReadsOneByteOrEndsOrBlocks : Prop :=
  (∀ w : Word, w.extractLsb' 12 4 = 0b1111#4 → w.extractLsb' 0 8 = 0x20#8 → decode w = .trap 0x20#8) ∧
  (∀ (s : State) (b : Byte) (rest : List Byte), s.conIn = b :: rest →
    ∃ t, exec (.trap 0x20#8) s = .next t ∧ t.reg 0 = b.zeroExtend 16 ∧ t.conIn = rest ∧
      t.conReads = s.conReads + 1 ∧ t.conTail = s.conTail ∧ t.conOut = s.conOut ∧
      SameRegistersBut 0 s t ∧ t.pc = s.pc ∧ t.cond = s.cond ∧ SameMemory s t ∧ SameStatus s t ∧
      t.params = s.params) ∧
  (∀ s : State, s.conIn = [] → s.conTail = .free →
    match Config.consoleDraw s.conReads with
    | some b =>
      ∃ t, exec (.trap 0x20#8) s = .next t ∧ t.reg 0 = b.zeroExtend 16 ∧ t.conIn = [] ∧
        t.conReads = s.conReads + 1 ∧ t.conTail = s.conTail ∧ t.conOut = s.conOut ∧
        SameRegistersBut 0 s t ∧ t.pc = s.pc ∧ t.cond = s.cond ∧ SameMemory s t ∧ SameStatus s t ∧
        t.params = s.params
    | none => Raises (.trap 0x20#8) s .consoleInputEnd (s.memRead (s.pc - 1#16)) .nothing) ∧
  (∀ s : State, s.conIn = [] → s.conTail = .ended →
    Raises (.trap 0x20#8) s .consoleInputEnd (s.memRead (s.pc - 1#16)) .nothing) ∧
  (∀ s : State, s.conIn = [] → s.conTail = .silent → exec (.trap 0x20#8) s = .fault .consoleBlocked)

/-- R152; that the write cannot fail is the spec's D20, the unchanged R7 and flags its D12. -/
def Obligations.OutWritesTheLowByteOfR0 : Prop :=
  (∀ w : Word, w.extractLsb' 12 4 = 0b1111#4 → w.extractLsb' 0 8 = 0x21#8 → decode w = .trap 0x21#8) ∧
  ∀ s : State, Writes (.trap 0x21#8) s [(s.reg 0).extractLsb' 0 8]

/-- R153: the low bytes of the cells from R0 up to the first zero cell, which must lie at or below 0xFFFF; with
none, PutsOverrun and nothing written (the spec's D14, D15; the unchanged flags and R7 are its D12). That the
record's word is the cell at `pc - 1`, in every state, is the model's (DEDUCED, log 14). -/
def Obligations.PutsWritesUpToTheZeroCell : Prop :=
  (∀ w : Word, w.extractLsb' 12 4 = 0b1111#4 → w.extractLsb' 0 8 = 0x22#8 → decode w = .trap 0x22#8) ∧
  (∀ (s : State) (n : Nat), (s.reg 0).toNat + n < 65536 →
    (∀ k < n, s.memRead (s.reg 0 + BitVec.ofNat 16 k) ≠ 0x0000#16) →
    s.memRead (s.reg 0 + BitVec.ofNat 16 n) = 0x0000#16 →
    Writes (.trap 0x22#8) s
      ((List.range n).map fun k => (s.memRead (s.reg 0 + BitVec.ofNat 16 k)).extractLsb' 0 8)) ∧
  (∀ s : State, (∀ a : Word, (s.reg 0).toNat ≤ a.toNat → s.memRead a ≠ 0x0000#16) →
    Raises (.trap 0x22#8) s .putsOverrun (s.memRead (s.pc - 1#16)) (.start (s.reg 0)))

/-- R154: HALT sets `halted`, every other component is unchanged, and no further fetch occurs. -/
def Obligations.HaltSetsHalted : Prop :=
  (∀ w : Word, w.extractLsb' 12 4 = 0b1111#4 → w.extractLsb' 0 8 = 0x25#8 → decode w = .trap 0x25#8) ∧
  ∀ s : State, ∃ t, exec (.trap 0x25#8) s = .next t ∧ t.halted = true ∧ t.fault = s.fault ∧
    SameRegisters s t ∧ t.pc = s.pc ∧ t.cond = s.cond ∧ SameMemory s t ∧ SameConsole s t ∧
    t.params = s.params ∧ ∀ u, step t ≠ .next u

/-- R155: any other vector is fatal; the record and the state left are the spec's D15 (log 12). That `exec` takes
the record's word from the cell at `pc - 1`, in every state, is the model's (DEDUCED, log 14). -/
def Obligations.OtherTrapVectorsAreFatal : Prop :=
  (∀ w : Word, w.extractLsb' 12 4 = 0b1111#4 → decode w = .trap (w.extractLsb' 0 8)) ∧
  (∀ (v : Byte) (s : State), v ≠ 0x20#8 → v ≠ 0x21#8 → v ≠ 0x22#8 → v ≠ 0x25#8 →
    Raises (.trap v) s .trapUnimplemented (s.memRead (s.pc - 1#16)) (.vect v)) ∧
  (∀ (v : Byte) (s : State), v ≠ 0x20#8 → v ≠ 0x21#8 → v ≠ 0x22#8 → v ≠ 0x25#8 →
    s.Enabled → Accepts s → decode (fetched s) = .trap v → StepRaises s .trapUnimplemented (.vect v))

/-- R156: RTI is always fatal; the record and the state left are the spec's D15 (log 12). That `exec` takes the
record's word from the cell at `pc - 1`, in every state and whatever word stands there, is the model's
(DEDUCED, log 14). -/
def Obligations.RtiIsFatal : Prop :=
  (∀ w : Word, w.extractLsb' 12 4 = 0b1000#4 → decode w = .rti) ∧
  (∀ s : State, Raises .rti s .rtiUnimplemented (s.memRead (s.pc - 1#16)) .nothing) ∧
  (∀ s : State, s.Enabled → Accepts s → (fetched s).extractLsb' 12 4 = 0b1000#4 →
    StepRaises s .rtiUnimplemented .nothing)

/-- R157 (the spec's D2): opcode 1101 is always fatal; the record and the state left are its D15. -/
def Obligations.ReservedOpcodeIsFatal : Prop :=
  (∀ w : Word, w.extractLsb' 12 4 = 0b1101#4 → decode w = .reserved w) ∧
  (∀ (w : Word) (s : State), Raises (.reserved w) s .reservedOpcode w .nothing) ∧
  (∀ s : State, s.Enabled → (fetched s).extractLsb' 12 4 = 0b1101#4 → StepRaises s .reservedOpcode .nothing)

/-! ## The condition codes (40_cycle.md R97, 10_state.md R28 to R30) -/

/-- R97: `setcc` sets exactly one flag, n being bit 15 and z being zero; and every instruction that writes
`cond` calls it with the value it writes to DR. -/
def Obligations.SetccSetsExactlyOneFlag : Prop :=
  (∀ (s : State) (v : Word),
    OneHot (s.setcc v).cond ∧ (s.setcc v).cond.n = v.getLsbD 15 ∧
    ((s.setcc v).cond.z = true ↔ v = 0x0000#16) ∧
    ((s.setcc v).cond.p = true ↔ v.getLsbD 15 = false ∧ v ≠ 0x0000#16)) ∧
  ∀ (i : Instr) (dr : Reg) (s t : State), codeSetterDest i = some dr → exec i s = .next t →
    t.cond = (s.setcc (t.reg dr)).cond

/-- R28 (with the spec's D12 for GETC): a step changes `cond` only by one of the nine instructions, which set
it from the value they write to DR. -/
def Obligations.OnlyNineInstructionsWriteTheFlags : Prop :=
  ∀ s t : State, step s = .next t →
    match codeSetterDest (decode (fetched s)) with
    | some dr => t.fault = none → FlagsOf (t.reg dr) t.cond
    | none => t.cond = s.cond

/-- R30: once exactly one flag is set, exactly one stays set. -/
def Obligations.OneFlagStaysSet : Prop :=
  ∀ s t : State, step s = .next t → OneHot s.cond → OneHot t.cond

/-! ## The step (40_cycle.md) -/

/-- R92, R93, R94: an enabled step fetches the word at `pc`, increments `pc`, and executes what the word
decodes to (where `STRICT_FIXED_BITS` lets the word through). -/
def Obligations.StepRunsTheDecodedInstruction : Prop :=
  ∀ s : State, s.Enabled → Accepts s →
    step s = exec (decode (s.memRead s.pc)) { s with pc := s.pc + 1#16 }

/-- R91: "A step is enabled only when `halted = false` and `fault = NONE`"; else the machine has no step. -/
def Obligations.HaltedOrFaultedMachineHasNoStep : Prop :=
  (∀ s : State, s.halted = true → ∀ t, step s ≠ .next t) ∧
  (∀ s : State, s.fault ≠ none → ∀ t, step s ≠ .next t) ∧
  (∀ s t : State, step s = .next t → s.halted = false ∧ s.fault = none)

/-- R91, R95, R100: an enabled machine has a next state, but for a GETC on a console that never answers; no
step is refused. The names of the stops are the model's (log 11, 13). -/
def Obligations.EnabledMachineStepsUnlessBlocked : Prop :=
  (∀ s : State, (∃ t, step s = .next t) ↔
    s.Enabled ∧ ¬ (Accepts s ∧ decode (fetched s) = .trap 0x20#8 ∧ s.conIn = [] ∧ s.conTail = .silent)) ∧
  (∀ s : State, s.halted = true → step s = .fault .halted) ∧
  (∀ s : State, s.halted = false → s.fault ≠ none → step s = .fault .faulted) ∧
  (∀ s : State, s.Enabled → Accepts s → decode (fetched s) = .trap 0x20#8 → s.conIn = [] → s.conTail = .silent →
    step s = .fault .consoleBlocked) ∧
  (∀ (s : State) (m : Refusal), step s ≠ .refused m)

/-- R71, R95, R175 (the spec's D3): under `STRICT_FIXED_BITS` a non-canonical word raises IllegalEncoding
before anything of its own rule happens. -/
def Obligations.StrictModeRejectsNonCanonicalWords : Prop :=
  ∀ s : State, s.Enabled → s.params.strictFixedBits = true → canonical (fetched s) = false →
    StepRaises s .illegalEncoding .nothing

/-- R99: "the only nondeterminism permitted is the external console's actual byte values for input traps": the
console's input changes nothing in a step whose instruction is not GETC. -/
def Obligations.ConsoleInputReachesOnlyGetc : Prop :=
  ∀ (s : State) (bs : List Byte) (tail : ConsoleTail) (k : Nat), decode (fetched s) ≠ .trap 0x20#8 →
    step { s with conIn := bs, conTail := tail, conReads := k } =
      mapNext (fun t => { t with conIn := bs, conTail := tail, conReads := k }) (step s)

/-! ## Faults (60_exceptions.md) -/

/-- R172, R173, R175 (the spec's D15): whatever fault a step records, it names the fetched word and its
address, `pc` is that address plus one, and nothing else has changed. -/
def Obligations.FaultsArePrecise : Prop :=
  ∀ (s t : State) (r : FaultRecord), step s = .next t → t.fault = some r →
    r.word = fetched s ∧ r.addr = s.pc ∧ t.pc = r.addr + 1#16 ∧ SameRegisters s t ∧ t.cond = s.cond ∧
    SameMemory s t ∧ t.halted = s.halted ∧ SameConsole s t ∧ t.params = s.params

/-- R171 (the spec's D15, log 12): which fault a step can record, by the instruction; "No instruction raises any
other fault"; and the six codes. RESERVED is the spec's D2 (log 17), the strict check its D3 (log 18), PUTS's
overrun its D14 (log 20). -/
def Obligations.FaultsHaveTheirOneCause : Prop :=
  (∀ s t : State, step s = .next t → Accepts s →
    match decode (fetched s) with
    | .rti => t.fault.map (fun r => (r.kind, r.info)) = some (.rtiUnimplemented, .nothing)
    | .reserved _ => t.fault.map (fun r => (r.kind, r.info)) = some (.reservedOpcode, .nothing)
    | .trap v =>
      if v = 0x20#8 then
        t.fault = none ∨ t.fault.map (fun r => (r.kind, r.info)) = some (.consoleInputEnd, .nothing)
      else if v = 0x22#8 then
        t.fault = none ∨ t.fault.map (fun r => (r.kind, r.info)) = some (.putsOverrun, .start (s.reg 0))
      else if v = 0x21#8 ∨ v = 0x25#8 then t.fault = none
      else t.fault.map (fun r => (r.kind, r.info)) = some (.trapUnimplemented, .vect v)
    | _ => t.fault = none) ∧
  (∀ s t : State, step s = .next t → ¬ Accepts s →
    t.fault.map (fun r => (r.kind, r.info)) = some (.illegalEncoding, .nothing)) ∧
  ([FaultKind.rtiUnimplemented, .trapUnimplemented, .reservedOpcode, .consoleInputEnd, .putsOverrun,
    .illegalEncoding].map FaultKind.code = [1, 2, 3, 4, 5, 6])

/-! ## What a step leaves alone, over all instructions -/

/-- R23: a step writes at most the register R23 lists for its instruction, and none if it faults. -/
def Obligations.StepWritesOnlyTheListedRegister : Prop :=
  ∀ s t : State, step s = .next t →
    (∀ q : Reg, writtenReg (decode (fetched s)) ≠ some q → t.reg q = s.reg q) ∧
    (t.fault ≠ none → SameRegisters s t)

/-- R42, R139: a step writes at most the one cell its store addresses, in the state with `pc` incremented. -/
def Obligations.StepWritesOnlyTheAddressedCell : Prop :=
  ∀ s t : State, step s = .next t → ∀ a : Word,
    writtenCell { s with pc := s.pc + 1#16 } (decode (fetched s)) ≠ some a → t.memRead a = s.memRead a

/-- R31: a step sets `halted` exactly when it executes TRAP HALT. -/
def Obligations.OnlyHaltHalts : Prop :=
  ∀ s t : State, step s = .next t →
    (t.halted = true ↔ Accepts s ∧ decode (fetched s) = .trap 0x25#8)

/-- R25, R26, R177: after every instruction but a control transfer, `pc` is the incremented PC, modulo 2^16. After
a TRAP that returns this is the spec's D12 (R177, log 19); after a step that records a fault (RTI, RESERVED,
a TRAP, a word the strict check rejects) it is its D15 (R173, log 12). -/
def Obligations.OnlyControlTransfersLeaveTheSequence : Prop :=
  ∀ s t : State, step s = .next t → isControl (decode (fetched s)) = false → t.pc = s.pc + 1#16

/-- R102, R151 to R153 and log 1: output only grows, by OUT and PUTS alone; input is consumed one byte at a
time, by GETC alone; the parameters never change. -/
def Obligations.ConsoleStreamsOnlyAdvance : Prop :=
  ∀ s t : State, step s = .next t →
    t.params = s.params ∧ t.conTail = s.conTail ∧
    (∃ bs, t.conOut = s.conOut ++ bs ∧
      (bs ≠ [] → decode (fetched s) = .trap 0x21#8 ∨ decode (fetched s) = .trap 0x22#8)) ∧
    ((t.conReads = s.conReads ∧ t.conIn = s.conIn) ∨
      (decode (fetched s) = .trap 0x20#8 ∧ t.conReads = s.conReads + 1 ∧ t.conIn = s.conIn.tail))

/-- R42: an instruction that makes no data access does the same whatever memory holds. Those that can raise a
fault and do not carry their word (RTI, GETC, the unimplemented vectors) do the same with every memory that
agrees on their own cell, from which the model takes the record's word (DEDUCED, log 14). -/
def Obligations.OtherInstructionsIgnoreMemory : Prop :=
  ∀ (i : Instr) (s : State) (m : Memory), makesNoDataAccess i = true →
    (takesRecordWordFromItsCell i = true → m.read (s.pc - 1#16).toNat = s.memRead (s.pc - 1#16)) →
    exec i { s with mem := m } = mapNext (fun t => { t with mem := m }) (exec i s)

/-! ## Reset, launch and the invariant -/

/-- R37 with R8's defaults, the spec's D6 to D10 (log 2 to 9): what the reset state reads as, and that it is
the launch of R190 with the defaults and nothing loaded. -/
def Obligations.ResetStateHoldsTheDefaults : Prop :=
  (∀ q : Reg, State.reset.reg q = 0x0000#16) ∧ State.reset.pc = 0x3000#16 ∧
  State.reset.cond = { n := false, z := false, p := false } ∧
  (∀ a : Word, State.reset.memRead a = 0x0000#16) ∧
  State.reset.halted = false ∧ State.reset.fault = none ∧
  State.reset.params = { jmpMode := .add, jsrrOrder := .linkFirst, strictFixedBits := false } ∧
  State.reset = State.launch Config.launchParams []

/-- R190 (the spec's D6 to D10): what a launch leaves, for every value of the parameters and every image: the
last word the loader wrote to a cell, and 0x0000 in a cell it did not write. -/
def Obligations.LaunchBuildsTheParametersState : Prop :=
  ∀ (p : LaunchParams) (image : List (Word × Word)),
    (∀ q : Reg, (State.launch p image).reg q = p.initRegs[q]) ∧
    (State.launch p image).pc = p.origin ∧ (State.launch p image).cond = p.initCond ∧
    (State.launch p image).halted = false ∧ (State.launch p image).fault = none ∧
    (State.launch p image).params = p.params ∧
    (State.launch p image).conIn = p.conIn ∧ (State.launch p image).conTail = p.conTail ∧
    (State.launch p image).conReads = 0 ∧ (State.launch p image).conOut = [] ∧
    (∀ a : Word, (∀ c ∈ image, c.1 ≠ a) → (State.launch p image).memRead a = 0x0000#16) ∧
    (∀ (pre post : List (Word × Word)) (a v : Word), image = pre ++ (a, v) :: post →
      (∀ c ∈ post, c.1 ≠ a) → (State.launch p image).memRead a = v)

/-- The invariant holds of the reset state: its memory is canonical (the model's form, log 22) and it has neither
halted nor faulted. -/
def Obligations.ResetMeetsTheInvariant : Prop := State.reset.Inv

/-- The invariant holds after every launch, whatever the parameters and the image: canonical memory is the
model's form (log 22). -/
def Obligations.LaunchMeetsTheInvariant : Prop :=
  ∀ (p : LaunchParams) (image : List (Word × Word)), (State.launch p image).Inv

/-- Every step keeps the invariant: memory stays canonical (the model's form, log 22), a run has not both halted
and faulted, and a recorded fault is precise (the spec's D15, log 12) and has its cause (its D2 for RESERVED,
log 17; its D3 for the strict check, log 18; its D14 for PUTS, log 20). -/
def Obligations.StepKeepsTheInvariant : Prop :=
  ∀ s t : State, s.Inv → step s = .next t → t.Inv
end

