-- ==== Sys2Proof/Laws/Decode.lean ====
section
/-! SUPPORT. The decoder's and the encoder's small lemmas: the opcode map is a bijection, a field put into a
word is the field read from it, and what the decoder does at each opcode. -/

namespace Sys2Proof

/-! ### The opcode map -/

/-- No opcode value falls through to a neighbour's. -/
@[simp] theorem Opcode.bits_ofBits (b : BitVec 4) : (Opcode.ofBits b).bits = b := by
  revert b
  decide

@[simp] theorem Opcode.ofBits_bits (o : Opcode) : Opcode.ofBits o.bits = o := by
  cases o <;> rfl

theorem Opcode.ofBits_eq_iff (b : BitVec 4) (o : Opcode) : Opcode.ofBits b = o ↔ b = o.bits :=
  ⟨fun h => by rw [← h, Opcode.bits_ofBits], fun h => by rw [h, Opcode.ofBits_bits]⟩

/-! ### Fields put and read -/

theorem getLsbD_place (lo : Nat) {k : Nat} (f : BitVec k) (i : Nat) :
    (place lo f).getLsbD i = (decide (lo ≤ i) && decide (i < 16) && f.getLsbD (i - lo)) := by
  by_cases h : i < 16
  · by_cases h' : i < lo
    · simp [place, h', Nat.not_le.mpr h']
    · simp [place, h, h', Nat.not_lt.mp h']
  · simp [place, h]

/-- The field read where it was put. -/
theorem extract_place_same (lo : Nat) {k : Nat} (f : BitVec k) (h : lo + k ≤ 16) :
    (place lo f).extractLsb' lo k = f := by
  apply BitVec.eq_of_getLsbD_eq
  intro i hi
  have h1 : lo + i < 16 := by omega
  rw [BitVec.getLsbD_extractLsb', getLsbD_place]
  simp [hi, h1]

/-- Reading elsewhere finds nothing of it. -/
theorem extract_place_apart (lo : Nat) {k : Nat} (f : BitVec k) (lo' k' : Nat)
    (h : lo' + k' ≤ lo ∨ lo + k ≤ lo') : (place lo f).extractLsb' lo' k' = 0#k' := by
  apply BitVec.eq_of_getLsbD_eq
  intro i hi
  rw [BitVec.getLsbD_extractLsb', getLsbD_place, BitVec.getLsbD_zero]
  by_cases h1 : lo ≤ lo' + i
  · have h2 : k ≤ lo' + i - lo := by omega
    simp [BitVec.getLsbD_of_ge f _ h2]
  · simp [h1]

/-- A word under a mask, bit by bit. -/
theorem and_eq_iff_bits (w m v : Word) :
    w &&& m = v ↔ ∀ i : Fin 16, (w.getLsbD i && m.getLsbD i) = v.getLsbD i := by
  constructor
  · rintro rfl i
    simp
  · intro h
    apply BitVec.eq_of_getLsbD_eq
    intro i hi
    simpa using h ⟨i, hi⟩

/-- A field of a word, bit by bit. -/
theorem extract_eq_iff_bits (w : Word) (lo : Nat) {k : Nat} (c : BitVec k) :
    w.extractLsb' lo k = c ↔ ∀ i : Fin k, w.getLsbD (lo + i) = c.getLsbD i := by
  constructor
  · rintro rfl i
    simp
  · intro h
    apply BitVec.eq_of_getLsbD_eq
    intro i hi
    rw [BitVec.getLsbD_extractLsb', decide_eq_true hi, Bool.true_and]
    exact h ⟨i, hi⟩

/-- The mask 0xF000 tells the opcode (opcode_table.json, R61). -/
theorem and_opcodeMask_eq_iff (w : Word) (c : BitVec 4) : w &&& 0xF000#16 = place 12 c ↔ opcodeBits w = c := by
  rw [and_eq_iff_bits, opcodeBits, extract_eq_iff_bits]
  simp only [Fin.forall_fin_succ, getLsbD_place]
  simp [-BitVec.getLsbD_eq_getElem]

@[simp] theorem toFin_regBits (r : Reg) : (regBits r).toFin = r := rfl

/-! ### The decoder at each opcode (30_encoding.md R76) -/

theorem decode_br {w : Word} (h : opcodeBits w = 0b0000#4) :
    decode w = .br (w.getLsbD 11) (w.getLsbD 10) (w.getLsbD 9) (sextField w 9) := by
  simp [decode, h, Opcode.ofBits]

theorem decode_add {w : Word} (h : opcodeBits w = 0b0001#4) (h5 : w.getLsbD 5 = false) :
    decode w = .add (regField w 9) (regField w 6) (regField w 0) := by
  simp only [decode, h, Opcode.ofBits, h5]
  rfl

theorem decode_addi {w : Word} (h : opcodeBits w = 0b0001#4) (h5 : w.getLsbD 5 = true) :
    decode w = .addi (regField w 9) (regField w 6) (sextField w 5) := by
  simp only [decode, h, Opcode.ofBits, h5]
  rfl

theorem decode_ld {w : Word} (h : opcodeBits w = 0b0010#4) :
    decode w = .ld (regField w 9) (sextField w 9) := by
  simp [decode, h, Opcode.ofBits]

theorem decode_st {w : Word} (h : opcodeBits w = 0b0011#4) :
    decode w = .st (regField w 9) (sextField w 9) := by
  simp [decode, h, Opcode.ofBits]

theorem decode_jsrr {w : Word} (h : opcodeBits w = 0b0100#4) (h11 : w.getLsbD 11 = false) :
    decode w = .jsrr (regField w 6) := by
  simp only [decode, h, Opcode.ofBits, h11]
  rfl

theorem decode_jsr {w : Word} (h : opcodeBits w = 0b0100#4) (h11 : w.getLsbD 11 = true) :
    decode w = .jsr (sextField w 11) := by
  simp only [decode, h, Opcode.ofBits, h11]
  rfl

theorem decode_and {w : Word} (h : opcodeBits w = 0b0101#4) (h5 : w.getLsbD 5 = false) :
    decode w = .and_ (regField w 9) (regField w 6) (regField w 0) := by
  simp only [decode, h, Opcode.ofBits, h5]
  rfl

theorem decode_andi {w : Word} (h : opcodeBits w = 0b0101#4) (h5 : w.getLsbD 5 = true) :
    decode w = .andi (regField w 9) (regField w 6) (sextField w 5) := by
  simp only [decode, h, Opcode.ofBits, h5]
  rfl

theorem decode_ldr {w : Word} (h : opcodeBits w = 0b0110#4) :
    decode w = .ldr (regField w 9) (regField w 6) (sextField w 6) := by
  simp [decode, h, Opcode.ofBits]

theorem decode_str {w : Word} (h : opcodeBits w = 0b0111#4) :
    decode w = .str (regField w 9) (regField w 6) (sextField w 6) := by
  simp [decode, h, Opcode.ofBits]

theorem decode_rti {w : Word} (h : opcodeBits w = 0b1000#4) : decode w = .rti := by
  simp [decode, h, Opcode.ofBits]

theorem decode_not {w : Word} (h : opcodeBits w = 0b1001#4) :
    decode w = .not_ (regField w 9) (regField w 6) := by
  simp [decode, h, Opcode.ofBits]

theorem decode_ldi {w : Word} (h : opcodeBits w = 0b1010#4) :
    decode w = .ldi (regField w 9) (sextField w 9) := by
  simp [decode, h, Opcode.ofBits]

theorem decode_sti {w : Word} (h : opcodeBits w = 0b1011#4) :
    decode w = .sti (regField w 9) (sextField w 9) := by
  simp [decode, h, Opcode.ofBits]

theorem decode_jmp {w : Word} (h : opcodeBits w = 0b1100#4) : decode w = .jmp (regField w 6) := by
  simp [decode, h, Opcode.ofBits]

theorem decode_reserved {w : Word} (h : opcodeBits w = 0b1101#4) : decode w = .reserved w := by
  simp [decode, h, Opcode.ofBits]

theorem decode_lea {w : Word} (h : opcodeBits w = 0b1110#4) :
    decode w = .lea (regField w 9) (sextField w 9) := by
  simp [decode, h, Opcode.ofBits]

theorem decode_trap {w : Word} (h : opcodeBits w = 0b1111#4) : decode w = .trap (vectField w) := by
  simp [decode, h, Opcode.ofBits]

/-! ### Where a decoded instruction's word is known -/

/-- The RESERVED variant carries the word it was decoded from (R72). -/
theorem decode_reserved_word {w v : Word} (h : decode w = .reserved v) : v = w := by
  revert h
  unfold decode
  cases Opcode.ofBits (opcodeBits w) <;> dsimp only <;> intro h
  case reserved => injection h with h; exact h.symm
  case add | jsr | and_ => split at h <;> cases h
  all_goals cases h

end Sys2Proof
end

