-- ==== Sys2Proof/Laws/State.lean ====
section
/-! SUPPORT. One lemma per field of State and per operation that updates State: what the field holds
afterwards. Then what a register and a cell read as afterwards. -/

namespace Sys2Proof.Machine


/-! ### After `setReg` -/

@[simp] theorem State.setReg_regs (s : State) (r : Reg) (v : Word) :
    (s.setReg r v).regs = s.regs.set r v := rfl
@[simp] theorem State.setReg_pc (s : State) (r : Reg) (v : Word) :
    (s.setReg r v).pc = s.pc := rfl
@[simp] theorem State.setReg_cond (s : State) (r : Reg) (v : Word) :
    (s.setReg r v).cond = s.cond := rfl
@[simp] theorem State.setReg_mem (s : State) (r : Reg) (v : Word) :
    (s.setReg r v).mem = s.mem := rfl
@[simp] theorem State.setReg_halted (s : State) (r : Reg) (v : Word) :
    (s.setReg r v).halted = s.halted := rfl
@[simp] theorem State.setReg_fault (s : State) (r : Reg) (v : Word) :
    (s.setReg r v).fault = s.fault := rfl
@[simp] theorem State.setReg_params (s : State) (r : Reg) (v : Word) :
    (s.setReg r v).params = s.params := rfl
@[simp] theorem State.setReg_conIn (s : State) (r : Reg) (v : Word) :
    (s.setReg r v).conIn = s.conIn := rfl
@[simp] theorem State.setReg_conTail (s : State) (r : Reg) (v : Word) :
    (s.setReg r v).conTail = s.conTail := rfl
@[simp] theorem State.setReg_conReads (s : State) (r : Reg) (v : Word) :
    (s.setReg r v).conReads = s.conReads := rfl
@[simp] theorem State.setReg_conOut (s : State) (r : Reg) (v : Word) :
    (s.setReg r v).conOut = s.conOut := rfl
@[simp] theorem State.setReg_memRead (s : State) (r : Reg) (v : Word) (b : Word) :
    (s.setReg r v).memRead b = s.memRead b := rfl

/-! ### After `setPc` -/

@[simp] theorem State.setPc_regs (s : State) (a : Word) :
    (s.setPc a).regs = s.regs := rfl
@[simp] theorem State.setPc_pc (s : State) (a : Word) :
    (s.setPc a).pc = a := rfl
@[simp] theorem State.setPc_cond (s : State) (a : Word) :
    (s.setPc a).cond = s.cond := rfl
@[simp] theorem State.setPc_mem (s : State) (a : Word) :
    (s.setPc a).mem = s.mem := rfl
@[simp] theorem State.setPc_halted (s : State) (a : Word) :
    (s.setPc a).halted = s.halted := rfl
@[simp] theorem State.setPc_fault (s : State) (a : Word) :
    (s.setPc a).fault = s.fault := rfl
@[simp] theorem State.setPc_params (s : State) (a : Word) :
    (s.setPc a).params = s.params := rfl
@[simp] theorem State.setPc_conIn (s : State) (a : Word) :
    (s.setPc a).conIn = s.conIn := rfl
@[simp] theorem State.setPc_conTail (s : State) (a : Word) :
    (s.setPc a).conTail = s.conTail := rfl
@[simp] theorem State.setPc_conReads (s : State) (a : Word) :
    (s.setPc a).conReads = s.conReads := rfl
@[simp] theorem State.setPc_conOut (s : State) (a : Word) :
    (s.setPc a).conOut = s.conOut := rfl
@[simp] theorem State.setPc_reg (s : State) (a : Word) (q : Reg) :
    (s.setPc a).reg q = s.reg q := rfl
@[simp] theorem State.setPc_memRead (s : State) (a : Word) (b : Word) :
    (s.setPc a).memRead b = s.memRead b := rfl

/-! ### After `setCond` -/

@[simp] theorem State.setCond_regs (s : State) (c : Cond) :
    (s.setCond c).regs = s.regs := rfl
@[simp] theorem State.setCond_pc (s : State) (c : Cond) :
    (s.setCond c).pc = s.pc := rfl
@[simp] theorem State.setCond_cond (s : State) (c : Cond) :
    (s.setCond c).cond = c := rfl
@[simp] theorem State.setCond_mem (s : State) (c : Cond) :
    (s.setCond c).mem = s.mem := rfl
@[simp] theorem State.setCond_halted (s : State) (c : Cond) :
    (s.setCond c).halted = s.halted := rfl
@[simp] theorem State.setCond_fault (s : State) (c : Cond) :
    (s.setCond c).fault = s.fault := rfl
@[simp] theorem State.setCond_params (s : State) (c : Cond) :
    (s.setCond c).params = s.params := rfl
@[simp] theorem State.setCond_conIn (s : State) (c : Cond) :
    (s.setCond c).conIn = s.conIn := rfl
@[simp] theorem State.setCond_conTail (s : State) (c : Cond) :
    (s.setCond c).conTail = s.conTail := rfl
@[simp] theorem State.setCond_conReads (s : State) (c : Cond) :
    (s.setCond c).conReads = s.conReads := rfl
@[simp] theorem State.setCond_conOut (s : State) (c : Cond) :
    (s.setCond c).conOut = s.conOut := rfl
@[simp] theorem State.setCond_reg (s : State) (c : Cond) (q : Reg) :
    (s.setCond c).reg q = s.reg q := rfl
@[simp] theorem State.setCond_memRead (s : State) (c : Cond) (b : Word) :
    (s.setCond c).memRead b = s.memRead b := rfl

/-! ### After `halt` -/

@[simp] theorem State.halt_regs (s : State) :
    (s.halt).regs = s.regs := rfl
@[simp] theorem State.halt_pc (s : State) :
    (s.halt).pc = s.pc := rfl
@[simp] theorem State.halt_cond (s : State) :
    (s.halt).cond = s.cond := rfl
@[simp] theorem State.halt_mem (s : State) :
    (s.halt).mem = s.mem := rfl
@[simp] theorem State.halt_halted (s : State) :
    (s.halt).halted = true := rfl
@[simp] theorem State.halt_fault (s : State) :
    (s.halt).fault = s.fault := rfl
@[simp] theorem State.halt_params (s : State) :
    (s.halt).params = s.params := rfl
@[simp] theorem State.halt_conIn (s : State) :
    (s.halt).conIn = s.conIn := rfl
@[simp] theorem State.halt_conTail (s : State) :
    (s.halt).conTail = s.conTail := rfl
@[simp] theorem State.halt_conReads (s : State) :
    (s.halt).conReads = s.conReads := rfl
@[simp] theorem State.halt_conOut (s : State) :
    (s.halt).conOut = s.conOut := rfl
@[simp] theorem State.halt_reg (s : State) (q : Reg) :
    (s.halt).reg q = s.reg q := rfl
@[simp] theorem State.halt_memRead (s : State) (b : Word) :
    (s.halt).memRead b = s.memRead b := rfl

/-! ### After `memWrite` -/

@[simp] theorem State.memWrite_regs (s : State) (a v : Word) :
    (s.memWrite a v).regs = s.regs := rfl
@[simp] theorem State.memWrite_pc (s : State) (a v : Word) :
    (s.memWrite a v).pc = s.pc := rfl
@[simp] theorem State.memWrite_cond (s : State) (a v : Word) :
    (s.memWrite a v).cond = s.cond := rfl
@[simp] theorem State.memWrite_mem (s : State) (a v : Word) :
    (s.memWrite a v).mem = s.mem.write a.toNat v := rfl
@[simp] theorem State.memWrite_halted (s : State) (a v : Word) :
    (s.memWrite a v).halted = s.halted := rfl
@[simp] theorem State.memWrite_fault (s : State) (a v : Word) :
    (s.memWrite a v).fault = s.fault := rfl
@[simp] theorem State.memWrite_params (s : State) (a v : Word) :
    (s.memWrite a v).params = s.params := rfl
@[simp] theorem State.memWrite_conIn (s : State) (a v : Word) :
    (s.memWrite a v).conIn = s.conIn := rfl
@[simp] theorem State.memWrite_conTail (s : State) (a v : Word) :
    (s.memWrite a v).conTail = s.conTail := rfl
@[simp] theorem State.memWrite_conReads (s : State) (a v : Word) :
    (s.memWrite a v).conReads = s.conReads := rfl
@[simp] theorem State.memWrite_conOut (s : State) (a v : Word) :
    (s.memWrite a v).conOut = s.conOut := rfl
@[simp] theorem State.memWrite_reg (s : State) (a v : Word) (q : Reg) :
    (s.memWrite a v).reg q = s.reg q := rfl

/-! ### After `consoleTake` -/

@[simp] theorem State.consoleTake_regs (s : State) :
    (s.consoleTake).regs = s.regs := rfl
@[simp] theorem State.consoleTake_pc (s : State) :
    (s.consoleTake).pc = s.pc := rfl
@[simp] theorem State.consoleTake_cond (s : State) :
    (s.consoleTake).cond = s.cond := rfl
@[simp] theorem State.consoleTake_mem (s : State) :
    (s.consoleTake).mem = s.mem := rfl
@[simp] theorem State.consoleTake_halted (s : State) :
    (s.consoleTake).halted = s.halted := rfl
@[simp] theorem State.consoleTake_fault (s : State) :
    (s.consoleTake).fault = s.fault := rfl
@[simp] theorem State.consoleTake_params (s : State) :
    (s.consoleTake).params = s.params := rfl
@[simp] theorem State.consoleTake_conIn (s : State) :
    (s.consoleTake).conIn = s.conIn.tail := rfl
@[simp] theorem State.consoleTake_conTail (s : State) :
    (s.consoleTake).conTail = s.conTail := rfl
@[simp] theorem State.consoleTake_conReads (s : State) :
    (s.consoleTake).conReads = s.conReads + 1 := rfl
@[simp] theorem State.consoleTake_conOut (s : State) :
    (s.consoleTake).conOut = s.conOut := rfl
@[simp] theorem State.consoleTake_reg (s : State) (q : Reg) :
    (s.consoleTake).reg q = s.reg q := rfl
@[simp] theorem State.consoleTake_memRead (s : State) (b : Word) :
    (s.consoleTake).memRead b = s.memRead b := rfl

/-! ### After `consoleWrite` -/

@[simp] theorem State.consoleWrite_regs (s : State) (bs : List Byte) :
    (s.consoleWrite bs).regs = s.regs := rfl
@[simp] theorem State.consoleWrite_pc (s : State) (bs : List Byte) :
    (s.consoleWrite bs).pc = s.pc := rfl
@[simp] theorem State.consoleWrite_cond (s : State) (bs : List Byte) :
    (s.consoleWrite bs).cond = s.cond := rfl
@[simp] theorem State.consoleWrite_mem (s : State) (bs : List Byte) :
    (s.consoleWrite bs).mem = s.mem := rfl
@[simp] theorem State.consoleWrite_halted (s : State) (bs : List Byte) :
    (s.consoleWrite bs).halted = s.halted := rfl
@[simp] theorem State.consoleWrite_fault (s : State) (bs : List Byte) :
    (s.consoleWrite bs).fault = s.fault := rfl
@[simp] theorem State.consoleWrite_params (s : State) (bs : List Byte) :
    (s.consoleWrite bs).params = s.params := rfl
@[simp] theorem State.consoleWrite_conIn (s : State) (bs : List Byte) :
    (s.consoleWrite bs).conIn = s.conIn := rfl
@[simp] theorem State.consoleWrite_conTail (s : State) (bs : List Byte) :
    (s.consoleWrite bs).conTail = s.conTail := rfl
@[simp] theorem State.consoleWrite_conReads (s : State) (bs : List Byte) :
    (s.consoleWrite bs).conReads = s.conReads := rfl
@[simp] theorem State.consoleWrite_conOut (s : State) (bs : List Byte) :
    (s.consoleWrite bs).conOut = s.conOut ++ bs := rfl
@[simp] theorem State.consoleWrite_reg (s : State) (bs : List Byte) (q : Reg) :
    (s.consoleWrite bs).reg q = s.reg q := rfl
@[simp] theorem State.consoleWrite_memRead (s : State) (bs : List Byte) (b : Word) :
    (s.consoleWrite bs).memRead b = s.memRead b := rfl

/-! ### `raise` reads one cell of memory: the one its record's word comes from -/

theorem State.raise_with_mem (s : State) (m : Memory) (k : FaultKind) (info : FaultInfo)
    (h : m.read s.instrAddr.toNat = s.memRead s.instrAddr) :
    State.raise { s with mem := m } k info = { s.raise k info with mem := m } := by
  simp only [State.raise, State.raiseWord, State.instrAddr, State.memRead] at *
  rw [h]

/-! ### After `raiseWord` -/

@[simp] theorem State.raiseWord_regs (s : State) (k : FaultKind) (w : Word) (i : FaultInfo) :
    (s.raiseWord k w i).regs = s.regs := rfl
@[simp] theorem State.raiseWord_pc (s : State) (k : FaultKind) (w : Word) (i : FaultInfo) :
    (s.raiseWord k w i).pc = s.pc := rfl
@[simp] theorem State.raiseWord_cond (s : State) (k : FaultKind) (w : Word) (i : FaultInfo) :
    (s.raiseWord k w i).cond = s.cond := rfl
@[simp] theorem State.raiseWord_mem (s : State) (k : FaultKind) (w : Word) (i : FaultInfo) :
    (s.raiseWord k w i).mem = s.mem := rfl
@[simp] theorem State.raiseWord_halted (s : State) (k : FaultKind) (w : Word) (i : FaultInfo) :
    (s.raiseWord k w i).halted = s.halted := rfl
@[simp] theorem State.raiseWord_fault (s : State) (k : FaultKind) (w : Word) (i : FaultInfo) :
    (s.raiseWord k w i).fault = some { kind := k, word := w, addr := s.instrAddr, info := i } := rfl
@[simp] theorem State.raiseWord_params (s : State) (k : FaultKind) (w : Word) (i : FaultInfo) :
    (s.raiseWord k w i).params = s.params := rfl
@[simp] theorem State.raiseWord_conIn (s : State) (k : FaultKind) (w : Word) (i : FaultInfo) :
    (s.raiseWord k w i).conIn = s.conIn := rfl
@[simp] theorem State.raiseWord_conTail (s : State) (k : FaultKind) (w : Word) (i : FaultInfo) :
    (s.raiseWord k w i).conTail = s.conTail := rfl
@[simp] theorem State.raiseWord_conReads (s : State) (k : FaultKind) (w : Word) (i : FaultInfo) :
    (s.raiseWord k w i).conReads = s.conReads := rfl
@[simp] theorem State.raiseWord_conOut (s : State) (k : FaultKind) (w : Word) (i : FaultInfo) :
    (s.raiseWord k w i).conOut = s.conOut := rfl
@[simp] theorem State.raiseWord_reg (s : State) (k : FaultKind) (w : Word) (i : FaultInfo) (q : Reg) :
    (s.raiseWord k w i).reg q = s.reg q := rfl
@[simp] theorem State.raiseWord_memRead (s : State) (k : FaultKind) (w : Word) (i : FaultInfo) (b : Word) :
    (s.raiseWord k w i).memRead b = s.memRead b := rfl

/-! ### After `raise` -/

@[simp] theorem State.raise_regs (s : State) (k : FaultKind) (i : FaultInfo) :
    (s.raise k i).regs = s.regs := rfl
@[simp] theorem State.raise_pc (s : State) (k : FaultKind) (i : FaultInfo) :
    (s.raise k i).pc = s.pc := rfl
@[simp] theorem State.raise_cond (s : State) (k : FaultKind) (i : FaultInfo) :
    (s.raise k i).cond = s.cond := rfl
@[simp] theorem State.raise_mem (s : State) (k : FaultKind) (i : FaultInfo) :
    (s.raise k i).mem = s.mem := rfl
@[simp] theorem State.raise_halted (s : State) (k : FaultKind) (i : FaultInfo) :
    (s.raise k i).halted = s.halted := rfl
@[simp] theorem State.raise_fault (s : State) (k : FaultKind) (i : FaultInfo) :
    (s.raise k i).fault = some { kind := k, word := s.memRead s.instrAddr, addr := s.instrAddr, info := i } := rfl
@[simp] theorem State.raise_params (s : State) (k : FaultKind) (i : FaultInfo) :
    (s.raise k i).params = s.params := rfl
@[simp] theorem State.raise_conIn (s : State) (k : FaultKind) (i : FaultInfo) :
    (s.raise k i).conIn = s.conIn := rfl
@[simp] theorem State.raise_conTail (s : State) (k : FaultKind) (i : FaultInfo) :
    (s.raise k i).conTail = s.conTail := rfl
@[simp] theorem State.raise_conReads (s : State) (k : FaultKind) (i : FaultInfo) :
    (s.raise k i).conReads = s.conReads := rfl
@[simp] theorem State.raise_conOut (s : State) (k : FaultKind) (i : FaultInfo) :
    (s.raise k i).conOut = s.conOut := rfl
@[simp] theorem State.raise_reg (s : State) (k : FaultKind) (i : FaultInfo) (q : Reg) :
    (s.raise k i).reg q = s.reg q := rfl
@[simp] theorem State.raise_memRead (s : State) (k : FaultKind) (i : FaultInfo) (b : Word) :
    (s.raise k i).memRead b = s.memRead b := rfl

/-! ### After `setcc` -/

@[simp] theorem State.setcc_regs (s : State) (v : Word) :
    (s.setcc v).regs = s.regs := rfl
@[simp] theorem State.setcc_pc (s : State) (v : Word) :
    (s.setcc v).pc = s.pc := rfl
@[simp] theorem State.setcc_cond (s : State) (v : Word) :
    (s.setcc v).cond = condOf v := rfl
@[simp] theorem State.setcc_mem (s : State) (v : Word) :
    (s.setcc v).mem = s.mem := rfl
@[simp] theorem State.setcc_halted (s : State) (v : Word) :
    (s.setcc v).halted = s.halted := rfl
@[simp] theorem State.setcc_fault (s : State) (v : Word) :
    (s.setcc v).fault = s.fault := rfl
@[simp] theorem State.setcc_params (s : State) (v : Word) :
    (s.setcc v).params = s.params := rfl
@[simp] theorem State.setcc_conIn (s : State) (v : Word) :
    (s.setcc v).conIn = s.conIn := rfl
@[simp] theorem State.setcc_conTail (s : State) (v : Word) :
    (s.setcc v).conTail = s.conTail := rfl
@[simp] theorem State.setcc_conReads (s : State) (v : Word) :
    (s.setcc v).conReads = s.conReads := rfl
@[simp] theorem State.setcc_conOut (s : State) (v : Word) :
    (s.setcc v).conOut = s.conOut := rfl
@[simp] theorem State.setcc_reg (s : State) (v : Word) (q : Reg) :
    (s.setcc v).reg q = s.reg q := rfl
@[simp] theorem State.setcc_memRead (s : State) (v : Word) (b : Word) :
    (s.setcc v).memRead b = s.memRead b := rfl

/-! ### After `writeResult` -/

@[simp] theorem State.writeResult_regs (s : State) (r : Reg) (v : Word) :
    (s.writeResult r v).regs = s.regs.set r v := rfl
@[simp] theorem State.writeResult_pc (s : State) (r : Reg) (v : Word) :
    (s.writeResult r v).pc = s.pc := rfl
@[simp] theorem State.writeResult_cond (s : State) (r : Reg) (v : Word) :
    (s.writeResult r v).cond = condOf v := rfl
@[simp] theorem State.writeResult_mem (s : State) (r : Reg) (v : Word) :
    (s.writeResult r v).mem = s.mem := rfl
@[simp] theorem State.writeResult_halted (s : State) (r : Reg) (v : Word) :
    (s.writeResult r v).halted = s.halted := rfl
@[simp] theorem State.writeResult_fault (s : State) (r : Reg) (v : Word) :
    (s.writeResult r v).fault = s.fault := rfl
@[simp] theorem State.writeResult_params (s : State) (r : Reg) (v : Word) :
    (s.writeResult r v).params = s.params := rfl
@[simp] theorem State.writeResult_conIn (s : State) (r : Reg) (v : Word) :
    (s.writeResult r v).conIn = s.conIn := rfl
@[simp] theorem State.writeResult_conTail (s : State) (r : Reg) (v : Word) :
    (s.writeResult r v).conTail = s.conTail := rfl
@[simp] theorem State.writeResult_conReads (s : State) (r : Reg) (v : Word) :
    (s.writeResult r v).conReads = s.conReads := rfl
@[simp] theorem State.writeResult_conOut (s : State) (r : Reg) (v : Word) :
    (s.writeResult r v).conOut = s.conOut := rfl
@[simp] theorem State.writeResult_memRead (s : State) (r : Reg) (v : Word) (b : Word) :
    (s.writeResult r v).memRead b = s.memRead b := rfl

/-! ### After `link` -/

@[simp] theorem State.link_regs (s : State) :
    (s.link).regs = s.regs.set (7 : Reg) s.pc := rfl
@[simp] theorem State.link_pc (s : State) :
    (s.link).pc = s.pc := rfl
@[simp] theorem State.link_cond (s : State) :
    (s.link).cond = s.cond := rfl
@[simp] theorem State.link_mem (s : State) :
    (s.link).mem = s.mem := rfl
@[simp] theorem State.link_halted (s : State) :
    (s.link).halted = s.halted := rfl
@[simp] theorem State.link_fault (s : State) :
    (s.link).fault = s.fault := rfl
@[simp] theorem State.link_params (s : State) :
    (s.link).params = s.params := rfl
@[simp] theorem State.link_conIn (s : State) :
    (s.link).conIn = s.conIn := rfl
@[simp] theorem State.link_conTail (s : State) :
    (s.link).conTail = s.conTail := rfl
@[simp] theorem State.link_conReads (s : State) :
    (s.link).conReads = s.conReads := rfl
@[simp] theorem State.link_conOut (s : State) :
    (s.link).conOut = s.conOut := rfl
@[simp] theorem State.link_memRead (s : State) (b : Word) :
    (s.link).memRead b = s.memRead b := rfl

/-! ### After `advance` -/

@[simp] theorem State.advance_regs (s : State) :
    (s.advance).regs = s.regs := rfl
@[simp] theorem State.advance_pc (s : State) :
    (s.advance).pc = s.pc + 1#16 := rfl
@[simp] theorem State.advance_cond (s : State) :
    (s.advance).cond = s.cond := rfl
@[simp] theorem State.advance_mem (s : State) :
    (s.advance).mem = s.mem := rfl
@[simp] theorem State.advance_halted (s : State) :
    (s.advance).halted = s.halted := rfl
@[simp] theorem State.advance_fault (s : State) :
    (s.advance).fault = s.fault := rfl
@[simp] theorem State.advance_params (s : State) :
    (s.advance).params = s.params := rfl
@[simp] theorem State.advance_conIn (s : State) :
    (s.advance).conIn = s.conIn := rfl
@[simp] theorem State.advance_conTail (s : State) :
    (s.advance).conTail = s.conTail := rfl
@[simp] theorem State.advance_conReads (s : State) :
    (s.advance).conReads = s.conReads := rfl
@[simp] theorem State.advance_conOut (s : State) :
    (s.advance).conOut = s.conOut := rfl
@[simp] theorem State.advance_reg (s : State) (q : Reg) :
    (s.advance).reg q = s.reg q := rfl
@[simp] theorem State.advance_memRead (s : State) (b : Word) :
    (s.advance).memRead b = s.memRead b := rfl

/-! ### Registers -/

theorem State.setReg_reg (s : State) (r q : Reg) (v : Word) :
    (s.setReg r v).reg q = if r = q then v else s.reg q := by
  simp only [State.reg, State.setReg, Fin.getElem_fin, Vector.getElem_set, Fin.ext_iff]

@[simp] theorem State.setReg_reg_same (s : State) (r : Reg) (v : Word) : (s.setReg r v).reg r = v := by
  simp [State.setReg_reg]

@[simp] theorem State.setReg_reg_other (s : State) {r q : Reg} (v : Word) (h : q ≠ r) :
    (s.setReg r v).reg q = s.reg q := by
  simp [State.setReg_reg, Ne.symm h]

@[simp] theorem State.writeResult_reg_same (s : State) (r : Reg) (v : Word) :
    (s.writeResult r v).reg r = v :=
  s.setReg_reg_same r v

@[simp] theorem State.writeResult_reg_other (s : State) {r q : Reg} (v : Word) (h : q ≠ r) :
    (s.writeResult r v).reg q = s.reg q :=
  s.setReg_reg_other v h

@[simp] theorem State.link_reg_same (s : State) : s.link.reg 7 = s.pc :=
  s.setReg_reg_same 7 s.pc

@[simp] theorem State.link_reg_other (s : State) {q : Reg} (h : q ≠ 7) : s.link.reg q = s.reg q :=
  s.setReg_reg_other s.pc h

/-! ### The instruction's address -/

/-- During an instruction's execution its address is the one it was fetched from (R172). -/
@[simp] theorem State.advance_instrAddr (s : State) : s.advance.instrAddr = s.pc := by
  simp [State.instrAddr]

/-- During an instruction's execution the cell at its address holds the fetched word (R172). -/
theorem State.advance_instrWord (s : State) : s.advance.memRead s.advance.instrAddr = s.fetchWord := by
  simp [State.fetchWord]

/-- The loader's state with nothing loaded and the default parameters is the reset state (R190). -/
theorem State.launch_default : State.launch Config.launchParams [] = State.reset := rfl

end Sys2Proof.Machine
end

