-- ==== Sys2Proof/Laws/Memory.lean ====
section
/-! SUPPORT. The laws of memory: a cell reads back what was written, every other cell is left alone, every
operation keeps the canonical form, and canonical memories that read alike are equal. -/

namespace Sys2Proof.Machine

namespace Memory

/-! ### Reading after writing -/

theorem read_erase (m : Memory) (a b : Nat) :
    (m.erase a).read b = if a = b then unlisted else m.read b := by
  induction m with
  | nil => simp [erase, read]
  | cons c m ih =>
    obtain ⟨k, v⟩ := c
    by_cases hk : k = a
    · subst hk
      by_cases hb : k = b
      · simpa [erase, hb] using ih
      · simpa [erase, read, hb] using ih
    · by_cases hb : k = b
      · subst hb
        simp [erase, read, hk, Ne.symm hk]
      · simp [erase, read, hk, hb, ih]

theorem read_insert_erase (m : Memory) (a b : Nat) (v : Word) :
    ((m.erase a).insert a v).read b = if a = b then v else m.read b := by
  induction m with
  | nil => by_cases h : a = b <;> simp [erase, insert, read, h]
  | cons c m ih =>
    obtain ⟨k, w⟩ := c
    by_cases hk : k = a
    · subst hk
      by_cases hb : k = b
      · simpa [erase, hb] using ih
      · simpa [erase, read, hb] using ih
    · by_cases hb : a = b
      · subst hb
        by_cases hlt : a < k
        · simp [erase, insert, read, hk, hlt]
        · simpa [erase, insert, read, hk, hlt] using ih
      · by_cases hlt : a < k
        · rcases eq_or_ne k b with rfl | hkb
          · simp [erase, insert, read, hk, hlt, hb]
          · simp [erase, insert, read, hk, hlt, hb, hkb, read_erase]
        · rcases eq_or_ne k b with rfl | hkb
          · simp [erase, insert, read, hk, hlt, hb]
          · simp [erase, insert, read, hk, hlt, hkb, ih, hb]

/-- One law for every read after a write. -/
theorem read_write (m : Memory) (a b : Nat) (v : Word) :
    (m.write a v).read b = if a = b then v else m.read b := by
  by_cases hv : v = unlisted
  · subst hv
    simp [write, read_erase]
  · simp [write, hv, read_insert_erase]

@[simp] theorem read_write_same (m : Memory) (a : Nat) (v : Word) : (m.write a v).read a = v := by
  simp [read_write]

@[simp] theorem read_write_other (m : Memory) {a b : Nat} (v : Word) (h : b ≠ a) :
    (m.write a v).read b = m.read b := by
  simp [read_write, Ne.symm h]

/-! ### The canonical form is kept -/

theorem wfFrom_mono {lo lo' : Nat} (m : Memory) (h : lo ≤ lo') (hm : wfFrom lo' m = true) :
    wfFrom lo m = true := by
  cases m with
  | nil => rfl
  | cons c m =>
    simp only [wfFrom, Bool.and_eq_true, decide_eq_true_eq] at hm ⊢
    exact ⟨⟨⟨by omega, hm.1.1.2⟩, hm.1.2⟩, hm.2⟩

theorem wfFrom_erase (m : Memory) (a lo : Nat) (hm : wfFrom lo m = true) : wfFrom lo (m.erase a) = true := by
  induction m generalizing lo with
  | nil => rfl
  | cons c m ih =>
    obtain ⟨k, v⟩ := c
    simp only [wfFrom, Bool.and_eq_true, decide_eq_true_eq] at hm
    by_cases hk : k = a
    · simpa [erase, hk] using ih lo (wfFrom_mono m (by omega) hm.2)
    · simp [erase, hk, wfFrom, hm.1.1.1, hm.1.1.2, hm.1.2, ih (k + 1) hm.2]

/-- Erasing what is not listed between two cells leaves the bound of the rest as it was. -/
theorem wfFrom_insert (m : Memory) (a lo : Nat) (v : Word) (ha : lo ≤ a) (hs : a < size) (hv : v ≠ unlisted)
    (hm : wfFrom lo m = true) : wfFrom lo ((m.erase a).insert a v) = true := by
  induction m generalizing lo with
  | nil => simp [erase, insert, wfFrom, ha, hs, hv]
  | cons c m ih =>
    obtain ⟨k, w⟩ := c
    simp only [wfFrom, Bool.and_eq_true, decide_eq_true_eq] at hm
    by_cases hk : k = a
    · simpa [erase, hk] using ih lo ha (wfFrom_mono m (by omega) hm.2)
    · by_cases hlt : a < k
      · have := wfFrom_erase m a (k + 1) hm.2
        simp [erase, insert, hk, hlt, wfFrom, ha, hs, hv, hm.1.1.2, hm.1.2, this, Nat.succ_le_of_lt hlt]
      · have := ih (k + 1) (by omega) hm.2
        simp [erase, insert, hk, hlt, wfFrom, hm.1.1.1, hm.1.1.2, hm.1.2, this]

/-- A write keeps the canonical form. -/
theorem wf_write (m : Memory) (a : Nat) (v : Word) (hs : a < size) (hm : m.wf = true) :
    (m.write a v).wf = true := by
  by_cases hv : v = unlisted
  · simpa [write, hv, wf] using wfFrom_erase m a 0 hm
  · simpa [write, hv, wf] using wfFrom_insert m a 0 v (Nat.zero_le a) hs hv hm

/-- The loader's writes keep the canonical form. -/
theorem wf_load (m : Memory) (image : List (Word × Word)) (hm : m.wf = true) : (m.load image).wf = true := by
  induction image generalizing m with
  | nil => exact hm
  | cons c image ih => exact ih _ (wf_write m _ _ c.1.isLt hm)

/-! ### Equal contents are equal data -/

theorem read_of_wfFrom (m : Memory) (lo a : Nat) (hm : wfFrom lo m = true) (ha : a < lo) :
    m.read a = unlisted := by
  induction m generalizing lo with
  | nil => rfl
  | cons c m ih =>
    obtain ⟨k, v⟩ := c
    simp only [wfFrom, Bool.and_eq_true, decide_eq_true_eq] at hm
    have hk : k ≠ a := by omega
    simpa [read, hk] using ih (k + 1) hm.2 (by omega)

theorem eq_of_wfFrom (m m' : Memory) (lo : Nat) (hm : wfFrom lo m = true) (hm' : wfFrom lo m' = true)
    (h : ∀ a, m.read a = m'.read a) : m = m' := by
  induction m generalizing m' lo with
  | nil =>
    cases m' with
    | nil => rfl
    | cons c m' =>
      simp only [wfFrom, Bool.and_eq_true, bne_iff_ne] at hm'
      exact absurd (by simpa [read] using (h c.1).symm) hm'.1.2
  | cons c m ih =>
    obtain ⟨k, v⟩ := c
    simp only [wfFrom, Bool.and_eq_true, decide_eq_true_eq, bne_iff_ne] at hm
    cases m' with
    | nil => exact absurd (by simpa [read] using h k) hm.1.2
    | cons c' m' =>
      obtain ⟨k', v'⟩ := c'
      simp only [wfFrom, Bool.and_eq_true, decide_eq_true_eq, bne_iff_ne] at hm'
      have hk : k = k' := by
        rcases Nat.lt_trichotomy k k' with hlt | heq | hgt
        · have h1 := h k
          simp only [read, if_pos, Nat.ne_of_gt hlt, if_false] at h1
          rw [read_of_wfFrom m' (k' + 1) k hm'.2 (by omega)] at h1
          exact absurd h1 hm.1.2
        · exact heq
        · have h1 := (h k').symm
          simp only [read, if_pos, Nat.ne_of_gt hgt, if_false] at h1
          rw [read_of_wfFrom m (k + 1) k' hm.2 (by omega)] at h1
          exact absurd h1 hm'.1.2
      subst hk
      have hv : v = v' := by simpa [read] using h k
      subst hv
      have hrest : m = m' := by
        refine ih m' (k + 1) hm.2 hm'.2 fun a => ?_
        by_cases ha : k = a
        · subst ha
          rw [read_of_wfFrom m (k + 1) k hm.2 (by omega), read_of_wfFrom m' (k + 1) k hm'.2 (by omega)]
        · simpa [read, ha] using h a
      rw [hrest]

/-- Canonical memories that read alike at every address are the same list. -/
theorem eq_of_wf (m m' : Memory) (hm : m.wf = true) (hm' : m'.wf = true) (h : ∀ a, m.read a = m'.read a) :
    m = m' :=
  eq_of_wfFrom m m' 0 hm hm' h

end Memory

/-! ### The same, for the state -/

theorem State.memWrite_memRead (s : State) (a b v : Word) :
    (s.memWrite a v).memRead b = if b = a then v else s.memRead b := by
  simp [State.memRead, Memory.read_write, BitVec.toNat_inj, eq_comm]

@[simp] theorem State.memWrite_memRead_same (s : State) (a v : Word) : (s.memWrite a v).memRead a = v := by
  simp [State.memWrite_memRead]

@[simp] theorem State.memWrite_memRead_other (s : State) {a b : Word} (v : Word) (h : b ≠ a) :
    (s.memWrite a v).memRead b = s.memRead b := by
  simp [State.memWrite_memRead, h]

theorem State.memWrite_wf (s : State) (a v : Word) (h : s.mem.wf = true) : (s.memWrite a v).mem.wf = true :=
  Memory.wf_write s.mem a.toNat v a.isLt h

/-- The reset state's memory is canonical. -/
theorem State.reset_mem_wf : State.reset.mem.wf = true := rfl

end Sys2Proof.Machine
end

