-- ==== Sys2Proof/Laws/Exec.lean ====
section
/-! SUPPORT. What an instruction can do: the equation of each meaning, what reading the console finds, the walk
of PUTS, and the one list of effects that every later proof goes through. -/

namespace Sys2Proof.Machine

/-! ### The meaning of each instruction, in the shared operations -/

theorem exec_add (dr sr1 sr2 : Reg) (s : State) :
    exec (.add dr sr1 sr2) s = .next (s.writeResult dr (s.reg sr1 + s.reg sr2)) := rfl

theorem exec_addi (dr sr1 : Reg) (imm : Word) (s : State) :
    exec (.addi dr sr1 imm) s = .next (s.writeResult dr (s.reg sr1 + imm)) := rfl

theorem exec_and (dr sr1 sr2 : Reg) (s : State) :
    exec (.and_ dr sr1 sr2) s = .next (s.writeResult dr (s.reg sr1 &&& s.reg sr2)) := rfl

theorem exec_andi (dr sr1 : Reg) (imm : Word) (s : State) :
    exec (.andi dr sr1 imm) s = .next (s.writeResult dr (s.reg sr1 &&& imm)) := rfl

theorem exec_not (dr sr : Reg) (s : State) :
    exec (.not_ dr sr) s = .next (s.writeResult dr (~~~ s.reg sr)) := rfl

theorem exec_br (n z p : Bool) (off : Word) (s : State) :
    exec (.br n z p off) s = .next (if branchTaken n z p s.cond then s.setPc (s.pcrel off) else s) := rfl

theorem exec_jmp_add (base : Reg) (s : State) (h : s.params.jmpMode = .add) :
    exec (.jmp base) s = .next (s.setPc (s.pc + s.reg base)) := by
  simp [exec, execJmp, h]

theorem exec_jmp_assign (base : Reg) (s : State) (h : s.params.jmpMode = .assign) :
    exec (.jmp base) s = .next (s.setPc (s.reg base)) := by
  simp [exec, execJmp, h]

theorem exec_jsr (off : Word) (s : State) : exec (.jsr off) s = .next (s.link.setPc (s.pcrel off)) := rfl

theorem exec_jsrr_linkFirst (base : Reg) (s : State) (h : s.params.jsrrOrder = .linkFirst) :
    exec (.jsrr base) s = .next (s.link.setPc (s.link.reg base)) := by
  simp [exec, execJsrr, h]

theorem exec_jsrr_readFirst (base : Reg) (s : State) (h : s.params.jsrrOrder = .readFirst) :
    exec (.jsrr base) s = .next (s.link.setPc (s.reg base)) := by
  simp [exec, execJsrr, h]

theorem exec_ld (dr : Reg) (off : Word) (s : State) :
    exec (.ld dr off) s = .next (s.writeResult dr (s.memRead (s.pcrel off))) := rfl

theorem exec_ldi (dr : Reg) (off : Word) (s : State) :
    exec (.ldi dr off) s = .next (s.writeResult dr (s.memRead (s.pointer off))) := rfl

theorem exec_ldr (dr base : Reg) (off : Word) (s : State) :
    exec (.ldr dr base off) s = .next (s.writeResult dr (s.memRead (s.based base off))) := rfl

theorem exec_lea (dr : Reg) (off : Word) (s : State) :
    exec (.lea dr off) s = .next (s.writeResult dr (s.pcrel off)) := rfl

theorem exec_st (sr : Reg) (off : Word) (s : State) :
    exec (.st sr off) s = .next (s.memWrite (s.pcrel off) (s.reg sr)) := rfl

theorem exec_sti (sr : Reg) (off : Word) (s : State) :
    exec (.sti sr off) s = .next (s.memWrite (s.pointer off) (s.reg sr)) := rfl

theorem exec_str (sr base : Reg) (off : Word) (s : State) :
    exec (.str sr base off) s = .next (s.memWrite (s.based base off) (s.reg sr)) := rfl

theorem exec_getc (s : State) : exec (.trap 0x20#8) s = trapGetc s := rfl

theorem exec_out (s : State) : exec (.trap 0x21#8) s = .next (s.consoleWrite [lowByte (s.reg 0)]) := rfl

theorem exec_puts (s : State) : exec (.trap 0x22#8) s = trapPuts s := rfl

theorem exec_halt (s : State) : exec (.trap 0x25#8) s = .next s.halt := rfl

theorem exec_trap_other (v : Byte) (s : State) (h : ¬ implementedVector v) :
    exec (.trap v) s = .next (s.raise .trapUnimplemented (.vect v)) := by
  simp only [implementedVector, not_or] at h
  simp only [exec, execTrap, h, if_false, trapOther]

theorem exec_rti (s : State) : exec .rti s = .next (s.raise .rtiUnimplemented .nothing) := rfl

theorem exec_reserved (w : Word) (s : State) :
    exec (.reserved w) s = .next (s.raiseWord .reservedOpcode w .nothing) := rfl

/-! ### The console -/

/-- `ConsoleRead()` waits for ever exactly on a silent console with no byte left. -/
theorem State.consoleRead_blocks (s : State) :
    s.consoleRead = .blocks ↔ s.conIn = [] ∧ s.conTail = .silent := by
  unfold State.consoleRead
  cases s.conIn with
  | cons b bs => simp
  | nil =>
    cases s.conTail <;> simp
    cases Config.consoleDraw s.conReads <;> simp

theorem trapGetc_cases (s : State) :
    (∃ b, s.consoleRead = .byte b ∧ trapGetc s = .next (s.consoleTake.setReg 0 (zextByte b))) ∨
    (s.consoleRead = .endOfStream ∧ trapGetc s = .next (s.raise .consoleInputEnd .nothing)) ∨
    (s.consoleRead = .blocks ∧ trapGetc s = .fault .consoleBlocked) := by
  unfold trapGetc
  cases s.consoleRead with
  | byte b => exact .inl ⟨b, rfl, rfl⟩
  | endOfStream => exact .inr (.inl ⟨rfl, rfl⟩)
  | blocks => exact .inr (.inr ⟨rfl, rfl⟩)

theorem trapPuts_cases (s : State) :
    (∃ bs, putsWalk s.mem Memory.size (s.reg 0) = some bs ∧ trapPuts s = .next (s.consoleWrite bs)) ∨
    (putsWalk s.mem Memory.size (s.reg 0) = none ∧
      trapPuts s = .next (s.raise .putsOverrun (.start (s.reg 0)))) := by
  unfold trapPuts
  cases putsWalk s.mem Memory.size (s.reg 0) with
  | some bs => exact .inl ⟨bs, rfl, rfl⟩
  | none => exact .inr ⟨rfl, rfl⟩

/-! ### The walk of PUTS -/

/-- At a zero cell the walk ends. -/
theorem putsWalk_zero (m : Memory) (fuel : Nat) (a : Word) (h : m.read a.toNat = 0x0000#16) :
    putsWalk m (fuel + 1) a = some [] := by
  simp [putsWalk, h]

/-- At a cell that is not zero, below 0xFFFF, it goes on to the next. -/
theorem putsWalk_step (m : Memory) (fuel : Nat) (a : Word) (h : m.read a.toNat ≠ 0x0000#16)
    (ha : a ≠ 0xFFFF#16) :
    putsWalk m (fuel + 1) a = (putsWalk m fuel (a + 1#16)).map (lowByte (m.read a.toNat) :: ·) := by
  simp only [putsWalk, h, ha, if_false]
  cases putsWalk m fuel (a + 1#16) <;> rfl

/-- At 0xFFFF, with no zero cell there, it fails. -/
theorem putsWalk_last (m : Memory) (fuel : Nat) (h : m.read (0xFFFF#16).toNat ≠ 0x0000#16) :
    putsWalk m (fuel + 1) 0xFFFF#16 = none := by
  simp only [putsWalk, h, if_false, if_true]

/-- The bound on the walk never cuts it short: one for each cell from `a` to 0xFFFF is enough, and more
changes nothing. -/
theorem putsWalk_fuel (m : Memory) (fuel : Nat) (a : Word) (h : Memory.size ≤ fuel + a.toNat) :
    putsWalk m (fuel + 1) a = putsWalk m fuel a := by
  induction fuel generalizing a with
  | zero =>
    have := a.isLt
    simp only [Memory.size] at h
    omega
  | succ fuel ih =>
    by_cases hz : m.read a.toNat = 0x0000#16
    · rw [putsWalk_zero m _ a hz, putsWalk_zero m _ a hz]
    · by_cases ha : a = 0xFFFF#16
      · subst ha
        rw [putsWalk_last m _ hz, putsWalk_last m _ hz]
      · have hlt : a.toNat + 1 < 2 ^ 16 := by
          have h1 : a.toNat ≠ 0xFFFF := fun h1 => ha (BitVec.eq_of_toNat_eq h1)
          have := a.isLt
          omega
        have hs : (a + 1#16).toNat = a.toNat + 1 := by
          rw [BitVec.toNat_add]
          exact Nat.mod_eq_of_lt hlt
        rw [putsWalk_step m _ a hz ha, putsWalk_step m _ a hz ha, ih (a + 1#16) (by rw [hs]; omega)]

/-! ### What an instruction can do -/

/-- The effects an instruction can have on the state it executes in. -/
inductive Effect (s t : State) : Prop where
  | nothing (h : t = s)
  | result (dr : Reg) (v : Word) (h : t = s.writeResult dr v)
  | jump (a : Word) (h : t = s.setPc a)
  | call (a : Word) (h : t = s.link.setPc a)
  | store (a v : Word) (h : t = s.memWrite a v)
  | input (b : Byte) (hb : s.consoleRead = .byte b) (h : t = s.consoleTake.setReg 0 (zextByte b))
  | output (bs : List Byte) (h : t = s.consoleWrite bs)
  | halt (h : t = s.halt)
  | raise (k : FaultKind) (w : Word) (info : FaultInfo) (h : t = s.raiseWord k w info)

/-- What a trap can do, by its vector, with the condition under which it does it (R150). -/
inductive TrapEffect (v : Byte) (s t : State) : Prop where
  | getc (hv : v = 0x20#8) (b : Byte) (hb : s.consoleRead = .byte b)
      (h : t = s.consoleTake.setReg 0 (zextByte b))
  | getcEnd (hv : v = 0x20#8) (hb : s.consoleRead = .endOfStream) (h : t = s.raise .consoleInputEnd .nothing)
  | out (hv : v = 0x21#8) (h : t = s.consoleWrite [lowByte (s.reg 0)])
  | puts (hv : v = 0x22#8) (bs : List Byte) (hw : putsWalk s.mem Memory.size (s.reg 0) = some bs)
      (h : t = s.consoleWrite bs)
  | putsOverrun (hv : v = 0x22#8) (hw : putsWalk s.mem Memory.size (s.reg 0) = none)
      (h : t = s.raise .putsOverrun (.start (s.reg 0)))
  | halt (hv : v = 0x25#8) (h : t = s.halt)
  | other (hv : ¬ implementedVector v) (h : t = s.raise .trapUnimplemented (.vect v))

theorem exec_trap_cases {v : Byte} {s t : State} (h : exec (.trap v) s = .next t) : TrapEffect v s t := by
  by_cases h20 : v = 0x20#8
  · subst h20
    rw [exec_getc] at h
    rcases trapGetc_cases s with ⟨b, hb, e⟩ | ⟨hb, e⟩ | ⟨-, e⟩ <;> rw [e] at h <;> cases h
    · exact .getc rfl b hb rfl
    · exact .getcEnd rfl hb rfl
  · by_cases h21 : v = 0x21#8
    · subst h21
      exact .out rfl (Host.Outcome.next.inj h).symm
    · by_cases h22 : v = 0x22#8
      · subst h22
        rw [exec_puts] at h
        rcases trapPuts_cases s with ⟨bs, hw, e⟩ | ⟨hw, e⟩ <;> rw [e] at h <;> injection h with h
        · exact .puts rfl bs hw h.symm
        · exact .putsOverrun rfl hw h.symm
      · by_cases h25 : v = 0x25#8
        · subst h25
          exact .halt rfl (Host.Outcome.next.inj h).symm
        · have hv : ¬ implementedVector v := by simp [implementedVector, h20, h21, h22, h25]
          rw [exec_trap_other v s hv] at h
          exact .other hv (Host.Outcome.next.inj h).symm

theorem exec_br_cases {n z p : Bool} {off : Word} {s t : State} (h : exec (.br n z p off) s = .next t) :
    (branchTaken n z p s.cond = true ∧ t = s.setPc (s.pcrel off)) ∨
    (branchTaken n z p s.cond = false ∧ t = s) := by
  rw [exec_br] at h
  cases hb : branchTaken n z p s.cond <;> rw [hb] at h <;> injection h with h
  · exact .inr ⟨rfl, h.symm⟩
  · exact .inl ⟨rfl, h.symm⟩

theorem exec_jmp_cases {base : Reg} {s t : State} (h : exec (.jmp base) s = .next t) :
    (s.params.jmpMode = .add ∧ t = s.setPc (s.pc + s.reg base)) ∨
    (s.params.jmpMode = .assign ∧ t = s.setPc (s.reg base)) := by
  cases hm : s.params.jmpMode with
  | add =>
    rw [exec_jmp_add base s hm] at h
    exact .inl ⟨rfl, (Host.Outcome.next.inj h).symm⟩
  | assign =>
    rw [exec_jmp_assign base s hm] at h
    exact .inr ⟨rfl, (Host.Outcome.next.inj h).symm⟩

theorem exec_jsrr_cases {base : Reg} {s t : State} (h : exec (.jsrr base) s = .next t) :
    (s.params.jsrrOrder = .linkFirst ∧ t = s.link.setPc (s.link.reg base)) ∨
    (s.params.jsrrOrder = .readFirst ∧ t = s.link.setPc (s.reg base)) := by
  cases hm : s.params.jsrrOrder with
  | linkFirst =>
    rw [exec_jsrr_linkFirst base s hm] at h
    exact .inl ⟨rfl, (Host.Outcome.next.inj h).symm⟩
  | readFirst =>
    rw [exec_jsrr_readFirst base s hm] at h
    exact .inr ⟨rfl, (Host.Outcome.next.inj h).symm⟩

/-- Whatever an instruction does to the state is one of the effects. -/
theorem exec_effect (i : Instr) (s t : State) (h : exec i s = .next t) : Effect s t := by
  cases i with
  | add | addi | and_ | andi | not_ | ld | ldi | ldr | lea =>
    exact .result _ _ (Host.Outcome.next.inj h).symm
  | st | sti | str => exact .store _ _ (Host.Outcome.next.inj h).symm
  | jsr => exact .call _ (Host.Outcome.next.inj h).symm
  | rti | reserved => exact .raise _ _ _ (Host.Outcome.next.inj h).symm
  | trap v =>
    cases exec_trap_cases h with
    | getc _ b hb e => exact .input b hb e
    | getcEnd _ _ e | putsOverrun _ _ e | other _ e => exact .raise _ _ _ e
    | out _ e | puts _ _ _ e => exact .output _ e
    | halt _ e => exact .halt e
  | br n z p off =>
    rcases exec_br_cases h with ⟨-, e⟩ | ⟨-, e⟩
    · exact .jump _ e
    · exact .nothing e
  | jmp base => rcases exec_jmp_cases h with ⟨-, e⟩ | ⟨-, e⟩ <;> exact .jump _ e
  | jsrr base => rcases exec_jsrr_cases h with ⟨-, e⟩ | ⟨-, e⟩ <;> exact .call _ e

/-- No effect changes the parameters. -/
theorem Effect.params {s t : State} (e : Effect s t) : t.params = s.params := by
  cases e <;> rename_i h <;> subst h <;> rfl

/-- Every effect keeps memory canonical. -/
theorem Effect.mem_wf {s t : State} (e : Effect s t) (h : s.mem.wf = true) : t.mem.wf = true := by
  cases e with
  | store a v e => subst e; exact State.memWrite_wf s a v h
  | nothing e | result _ _ e | jump _ e | call _ e | input _ _ e | output _ e | halt e | raise _ _ _ e =>
    subst e; exact h

end Sys2Proof.Machine
end

