-- ==== Sys2Proof/Laws/PerInstr.lean ====
section
/-! SUPPORT. The families of facts that are stated for each instruction. -/

namespace Sys2Proof.Laws

/-! ### EncodeOpcode: the word of a well-formed instruction carries the instruction's opcode (R61, R69) -/

/-- The encoder puts the opcode of R69 into bits[15:12]. -/
def EncodeOpcode.Statement (i : Instr) : Prop := i.wf = true → opcodeBits (encode i) = i.opcode.bits

namespace EncodeOpcode

/-- A field below bit 12 leaves the opcode bits alone. -/
theorem opcodeBits_or_place (w : Word) (lo : Nat) {k : Nat} (f : BitVec k) (h : lo + k ≤ 12) :
    opcodeBits (w ||| place lo f) = opcodeBits w := by
  simp [opcodeBits, BitVec.extractLsb'_or, extract_place_apart lo f 12 4 (Or.inr h)]

theorem opcodeBits_place (b : BitVec 4) : opcodeBits (place 12 b) = b :=
  extract_place_same 12 b (by decide)

theorem add (dr sr1 sr2 : Reg) : Statement (.add dr sr1 sr2) := fun _ => by
  simp [encode, opcodeBits_or_place, opcodeBits_place, Instr.opcode, Opcode.bits]

theorem addi (dr sr1 : Reg) (imm : Word) : Statement (.addi dr sr1 imm) := fun _ => by
  simp [encode, opcodeBits_or_place, opcodeBits_place, Instr.opcode, Opcode.bits]

theorem and_ (dr sr1 sr2 : Reg) : Statement (.and_ dr sr1 sr2) := fun _ => by
  simp [encode, opcodeBits_or_place, opcodeBits_place, Instr.opcode, Opcode.bits]

theorem andi (dr sr1 : Reg) (imm : Word) : Statement (.andi dr sr1 imm) := fun _ => by
  simp [encode, opcodeBits_or_place, opcodeBits_place, Instr.opcode, Opcode.bits]

theorem not_ (dr sr : Reg) : Statement (.not_ dr sr) := fun _ => by
  simp [encode, opcodeBits_or_place, opcodeBits_place, Instr.opcode, Opcode.bits]

theorem br (n z p : Bool) (off : Word) : Statement (.br n z p off) := fun _ => by
  simp [encode, opcodeBits_or_place, opcodeBits_place, Instr.opcode, Opcode.bits]

theorem jmp (base : Reg) : Statement (.jmp base) := fun _ => by
  simp [encode, opcodeBits_or_place, opcodeBits_place, Instr.opcode, Opcode.bits]

theorem jsr (off : Word) : Statement (.jsr off) := fun _ => by
  simp [encode, opcodeBits_or_place, opcodeBits_place, Instr.opcode, Opcode.bits]

theorem jsrr (base : Reg) : Statement (.jsrr base) := fun _ => by
  simp [encode, opcodeBits_or_place, opcodeBits_place, Instr.opcode, Opcode.bits]

theorem ld (dr : Reg) (off : Word) : Statement (.ld dr off) := fun _ => by
  simp [encode, opcodeBits_or_place, opcodeBits_place, Instr.opcode, Opcode.bits]

theorem ldi (dr : Reg) (off : Word) : Statement (.ldi dr off) := fun _ => by
  simp [encode, opcodeBits_or_place, opcodeBits_place, Instr.opcode, Opcode.bits]

theorem ldr (dr base : Reg) (off : Word) : Statement (.ldr dr base off) := fun _ => by
  simp [encode, opcodeBits_or_place, opcodeBits_place, Instr.opcode, Opcode.bits]

theorem lea (dr : Reg) (off : Word) : Statement (.lea dr off) := fun _ => by
  simp [encode, opcodeBits_or_place, opcodeBits_place, Instr.opcode, Opcode.bits]

theorem st (sr : Reg) (off : Word) : Statement (.st sr off) := fun _ => by
  simp [encode, opcodeBits_or_place, opcodeBits_place, Instr.opcode, Opcode.bits]

theorem sti (sr : Reg) (off : Word) : Statement (.sti sr off) := fun _ => by
  simp [encode, opcodeBits_or_place, opcodeBits_place, Instr.opcode, Opcode.bits]

theorem str (sr base : Reg) (off : Word) : Statement (.str sr base off) := fun _ => by
  simp [encode, opcodeBits_or_place, opcodeBits_place, Instr.opcode, Opcode.bits]

theorem trap (vect : Byte) : Statement (.trap vect) := fun _ => by
  simp [encode, opcodeBits_or_place, opcodeBits_place, Instr.opcode, Opcode.bits]

theorem rti : Statement (.rti) := fun _ => by
  simp [encode, opcodeBits_place, Instr.opcode, Opcode.bits]

theorem reserved (word : Word) : Statement (.reserved word) := fun h =>
  beq_iff_eq.mp h

end EncodeOpcode

end Sys2Proof.Laws
end

