-- ==== Sys2Proof/Laws/Step.lean ====
section
/-! SUPPORT. What one step can do, once: it stops, or it raises IllegalEncoding, or it executes the decoded
word. -/

namespace Sys2Proof.Machine

/-- The machine has no step exactly when it is not enabled (R91). -/
theorem State.stopReason_eq_none (s : State) : s.stopReason = none ↔ s.Enabled := by
  unfold State.stopReason
  cases hh : s.halted <;> cases hf : s.fault <;> simp [State.Enabled, hh, hf]

theorem step_of_enabled (s : State) (h : s.Enabled) : step s = cycle s := by
  simp [step, (State.stopReason_eq_none s).mpr h]

/-- Only an enabled machine has a next state. -/
theorem enabled_of_step {s t : State} (h : step s = .next t) : s.Enabled := by
  rw [← State.stopReason_eq_none]
  unfold step at h
  cases hr : s.stopReason with
  | none => rfl
  | some r => rw [hr] at h; cases h

theorem cycle_of_accepted (s : State) (h : s.rejectsWord s.fetchWord = false) :
    cycle s = exec (decode s.fetchWord) s.advance := by
  have h' : s.advance.rejectsWord s.fetchWord = false := h
  simp [cycle, executeWord, h']

theorem cycle_of_rejected (s : State) (h : s.rejectsWord s.fetchWord = true) :
    cycle s = .next (s.advance.raiseWord .illegalEncoding s.fetchWord .nothing) := by
  have h' : s.advance.rejectsWord s.fetchWord = true := h
  simp [cycle, executeWord, h']

/-- `STRICT_FIXED_BITS` lets the fetched word through: always when it is false, and canonical words when it is
true (R71). -/
theorem State.rejectsWord_eq_false (s : State) :
    s.rejectsWord s.fetchWord = false ↔ (s.params.strictFixedBits = true → canonical s.fetchWord = true) := by
  unfold State.rejectsWord
  cases s.params.strictFixedBits <;> simp

/-- A fault raised in an instruction's execution records the fetched word and the address it was fetched from
(R172). -/
theorem State.advance_raise (s : State) (k : FaultKind) (i : FaultInfo) :
    s.advance.raise k i = s.advance.raiseWord k s.fetchWord i := by
  simp [State.raise, State.fetchWord]

/-- A next state comes from a rejected word or from the execution of the decoded one. -/
theorem step_cases {s t : State} (h : step s = .next t) :
    (s.rejectsWord s.fetchWord = true ∧
      t = s.advance.raiseWord .illegalEncoding s.fetchWord .nothing) ∨
    (s.rejectsWord s.fetchWord = false ∧ exec (decode s.fetchWord) s.advance = .next t) := by
  rw [step_of_enabled s (enabled_of_step h)] at h
  cases hr : s.rejectsWord s.fetchWord with
  | true =>
    rw [cycle_of_rejected s hr] at h
    exact .inl ⟨rfl, (Host.Outcome.next.inj h).symm⟩
  | false =>
    rw [cycle_of_accepted s hr] at h
    exact .inr ⟨rfl, h⟩

/-- Whatever a step does is an effect on the state with the advanced `pc`. -/
theorem step_effect {s t : State} (h : step s = .next t) : Effect s.advance t := by
  rcases step_cases h with ⟨-, e⟩ | ⟨-, e⟩
  · exact .raise _ _ _ e
  · exact exec_effect _ _ _ e

end Sys2Proof.Machine
end

