-- ==== Sys2Proof/Tests/Slice0.lean ====
section
/-! SUPPORT. The model's own tests: ill-formed terms refused, words written out from the spec's encodings, single
steps with the results of 95_test_vectors.md (its section is named beside each), and for every statement that
has hypotheses a concrete case that meets them. -/

namespace Sys2Proof.Tests

open Sys2Proof.Machine Sys2Proof.Claims

/-! ### Helpers -/

/-- The reset state with the instruction word at 0x3000, where the first step fetches. -/
def boot (w : Word) : State := State.reset.withFetchWord 16 w.toNat

/-- The same state under `STRICT_FIXED_BITS`. -/
def strictly (s : State) : State := { s with params := { s.params with strictFixedBits := true } }

/-- The outcome is a next state of which the check holds. -/
def ends (r : Result) (check : State → Bool) : Bool :=
  match r with
  | .next t => check t
  | .fault _ => false
  | .refused _ => false

/-- The outcome is this stop. -/
def stops (r : Result) (f : Fault) : Bool :=
  match r with
  | .next _ => false
  | .fault g => f == g
  | .refused _ => false

def ccN : Cond := { n := true, z := false, p := false }
def ccZ : Cond := { n := false, z := true, p := false }
def ccP : Cond := { n := false, z := false, p := true }

/-! ### WellFormed refuses an ill-formed term of every check -/

theorem test_wf_refuses_addi_imm : (Instr.addi 0 0 0x0010#16).wf = false := by decide
theorem test_wf_refuses_andi_imm : (Instr.andi 0 0 0xFFEF#16).wf = false := by decide
theorem test_wf_refuses_br_off : (Instr.br true true true 0x0100#16).wf = false := by decide
theorem test_wf_refuses_jsr_off : (Instr.jsr 0x0400#16).wf = false := by decide
theorem test_wf_refuses_ld_off : (Instr.ld 0 0xFEFF#16).wf = false := by decide
theorem test_wf_refuses_ldi_off : (Instr.ldi 0 0x0100#16).wf = false := by decide
theorem test_wf_refuses_lea_off : (Instr.lea 0 0x0100#16).wf = false := by decide
theorem test_wf_refuses_st_off : (Instr.st 0 0x0100#16).wf = false := by decide
theorem test_wf_refuses_sti_off : (Instr.sti 0 0x0100#16).wf = false := by decide
theorem test_wf_refuses_ldr_off : (Instr.ldr 0 0 0x0020#16).wf = false := by decide
theorem test_wf_refuses_str_off : (Instr.str 0 0 0xFFDF#16).wf = false := by decide
theorem test_wf_refuses_reserved_word : (Instr.reserved 0xC000#16).wf = false := by decide

/-! ### Words written out from the formats of R70; the variants are those of 95_test_vectors.md 2.1 -/

theorem test_decode_br : decode 0b0000_0_0_0_100000000#16 = .br false false false 0xFF00#16 := by decide
theorem test_decode_add : decode 0b0001_001_010_0_00_011#16 = .add 1 2 3 := by decide
theorem test_decode_addi : decode 0b0001_000_000_1_10000#16 = .addi 0 0 0xFFF0#16 := by decide
theorem test_decode_and : decode 0b0101_000_001_0_00_010#16 = .and_ 0 1 2 := by decide
theorem test_decode_andi : decode 0b0101_011_011_1_00000#16 = .andi 3 3 0x0000#16 := by decide
theorem test_decode_not : decode 0b1001_100_101_000000#16 = .not_ 4 5 := by decide
theorem test_decode_jmp : decode 0b1100_111_111_111111#16 = .jmp 7 := by decide
theorem test_decode_jsr : decode 0b0100_1_10000000000#16 = .jsr 0xFC00#16 := by decide
theorem test_decode_jsrr : decode 0b0100_0_11_111_000000#16 = .jsrr 7 := by decide
theorem test_decode_ld : decode 0b0010_010_000000011#16 = .ld 2 0x0003#16 := by decide
theorem test_decode_ldi : decode 0b1010_011_000000001#16 = .ldi 3 0x0001#16 := by decide
theorem test_decode_ldr : decode 0b0110_100_000_100000#16 = .ldr 4 0 0xFFE0#16 := by decide
theorem test_decode_lea : decode 0b1110_000_100000000#16 = .lea 0 0xFF00#16 := by decide
theorem test_decode_st : decode 0b0011_001_000000000#16 = .st 1 0x0000#16 := by decide
theorem test_decode_sti : decode 0b1011_001_000000010#16 = .sti 1 0x0002#16 := by decide
theorem test_decode_str : decode 0b0111_001_110_011111#16 = .str 1 6 0x001F#16 := by decide
theorem test_decode_trap : decode 0b1111_1111_00100101#16 = .trap 0x25#8 := by decide
theorem test_decode_rti : decode 0b1000_111111111111#16 = .rti := by decide
theorem test_decode_reserved : decode 0xDABC#16 = .reserved 0xDABC#16 := by decide

theorem test_encode_not : encode (.not_ 4 5) = 0x997F#16 := by decide
theorem test_encode_jsrr : encode (.jsrr 3) = 0x40C0#16 := by decide
theorem test_table_word : decodeTableWord 16 0xF025 = some (.trap 0x25#8) := by decide
theorem test_table_word_too_long : decodeTableWord 16 0x1F025 = none := by decide

/-! ### Operate (2.2) -/

theorem test_add_wraps : ends (step (((boot 0x1283#16).setReg 2 0x7FFF#16).setReg 3 0x0001#16))
    (fun t => t.reg 1 == 0x8000#16 && t.cond == ccN && t.pc == 0x3001#16) = true := by decide
theorem test_add_onto_itself : ends (step ((boot 0x1241#16).setReg 1 0x4000#16))
    (fun t => t.reg 1 == 0x8000#16 && t.cond == ccN) = true := by decide
theorem test_addi_decrements_past_zero : ends (step (boot 0x103F#16))
    (fun t => t.reg 0 == 0xFFFF#16 && t.cond == ccN) = true := by decide
theorem test_addi_least_immediate : ends (step ((boot 0x1030#16).setReg 0 0x8000#16))
    (fun t => t.reg 0 == 0x7FF0#16 && t.cond == ccP) = true := by decide
theorem test_and_masks : ends (step (((boot 0x5042#16).setReg 1 0xF0F0#16).setReg 2 0x0FF0#16))
    (fun t => t.reg 0 == 0x00F0#16 && t.cond == ccP) = true := by decide
theorem test_andi_clears : ends (step ((boot 0x56E0#16).setReg 3 0x1234#16))
    (fun t => t.reg 3 == 0x0000#16 && t.cond == ccZ) = true := by decide
theorem test_andi_extends_the_sign : ends (step ((boot 0x56F0#16).setReg 3 0xABCD#16))
    (fun t => t.reg 3 == 0xABC0#16 && t.cond == ccN) = true := by decide
theorem test_not_complements : ends (step (boot 0x997F#16))
    (fun t => t.reg 4 == 0xFFFF#16 && t.reg 5 == 0x0000#16 && t.cond == ccN) = true := by decide

/-! ### Control (2.3) -/

theorem test_br_taken_wraps_up :
    ends (step { (State.reset.memWrite 0xFFFE#16 0x0204#16) with pc := 0xFFFE#16, cond := ccP })
      (fun t => t.pc == 0x0003#16 && t.cond == ccP) = true := by decide
theorem test_br_all_mask_no_flag : ends (step (boot 0x0E05#16)) (fun t => t.pc == 0x3001#16) = true := by decide
theorem test_jmp_adds : ends (step ((boot 0xC1C0#16).setReg 7 0xD000#16))
    (fun t => t.pc == 0x0001#16) = true := by decide
theorem test_jmp_assigns :
    ends (step { ((boot 0xC080#16).setReg 2 0x0010#16) with params := { Config.params with jmpMode := .assign } })
      (fun t => t.pc == 0x0010#16) = true := by decide
theorem test_jsr_links : ends (step (boot 0x4C00#16))
    (fun t => t.reg 7 == 0x3001#16 && t.pc == 0x2C01#16) = true := by decide
theorem test_jsrr_r7_link_first : ends (step ((boot 0x41C0#16).setReg 7 0x5000#16))
    (fun t => t.reg 7 == 0x3001#16 && t.pc == 0x3001#16) = true := by decide
theorem test_jsrr_r7_read_first :
    ends (step { ((boot 0x41C0#16).setReg 7 0x5000#16) with params := { Config.params with jsrrOrder := .readFirst } })
      (fun t => t.reg 7 == 0x3001#16 && t.pc == 0x5000#16) = true := by decide

/-! ### Loads (2.4) -/

theorem test_ld_own_cell : ends (step (boot 0x25FF#16))
    (fun t => t.reg 2 == 0x25FF#16 && t.cond == ccP) = true := by decide
theorem test_ldi_follows_the_pointer :
    ends (step (((boot 0xA601#16).memWrite 0x3002#16 0x4000#16).memWrite 0x4000#16 0x0000#16))
      (fun t => t.reg 3 == 0x0000#16 && t.cond == ccZ) = true := by decide
theorem test_ldr_wraps_the_address : ends (step ((boot 0x697F#16).memWrite 0xFFFF#16 0x1234#16))
    (fun t => t.reg 4 == 0x1234#16 && t.cond == ccP) = true := by decide
theorem test_ldr_over_its_base :
    ends (step (((boot 0x6B7F#16).setReg 5 0x4001#16).memWrite 0x4000#16 0x7FFF#16))
      (fun t => t.reg 5 == 0x7FFF#16 && t.cond == ccP) = true := by decide
theorem test_lea_sets_z : ends (step { (State.reset.memWrite 0x00FF#16 0xE100#16) with pc := 0x00FF#16 })
    (fun t => t.reg 0 == 0x0000#16 && t.cond == ccZ) = true := by decide

/-! ### Stores (2.5) -/

theorem test_st_over_itself : ends (step ((boot 0x33FF#16).setReg 1 0x1234#16))
    (fun t => t.memRead 0x3000#16 == 0x1234#16 && t.cond == State.reset.cond) = true := by decide
theorem test_sti_over_the_pointer :
    ends (step (((boot 0xB202#16).setReg 1 0x0042#16).memWrite 0x3003#16 0x3003#16))
      (fun t => t.memRead 0x3003#16 == 0x0042#16) = true := by decide
theorem test_str_wraps_the_address : ends (step (((boot 0x739F#16).setReg 1 0x1111#16).setReg 6 0xFFF0#16))
    (fun t => t.memRead 0x000F#16 == 0x1111#16 && t.reg 6 == 0xFFF0#16) = true := by decide
/-- Storing what an unlisted cell reads as unlists the cell. -/
theorem test_store_of_zero_is_canonical : ends (step ((boot 0x739F#16).memWrite 0x001F#16 0x0007#16))
    (fun t => t.mem == [(0x3000, 0x739F#16)]) = true := by decide

/-! ### TRAP, RTI, reserved (2.6) -/

theorem test_getc_reads_a_byte : ends (step { (boot 0xF020#16) with conIn := [0x41#8, 0x42#8], cond := ccP })
    (fun t => t.reg 0 == 0x0041#16 && t.cond == ccP && t.conReads == 1 && t.conIn == [0x42#8]) = true := by decide
theorem test_getc_at_end :
    ends (step { ((boot 0xF020#16).setReg 0 0x1234#16) with conTail := .ended })
      (fun t => t.fault == some ⟨.consoleInputEnd, 0xF020#16, 0x3000#16, .nothing⟩ && t.reg 0 == 0x1234#16 &&
        t.pc == 0x3001#16 && t.conReads == 0) = true := by decide
theorem test_getc_blocks : stops (step { (boot 0xF020#16) with conTail := .silent }) .consoleBlocked = true := by
  decide
theorem test_out_low_byte : ends (step ((boot 0xF021#16).setReg 0 0x1241#16))
    (fun t => t.conOut == [0x41#8] && t.reg 0 == 0x1241#16) = true := by decide
theorem test_puts_zero_low_byte_is_no_terminator :
    ends (step ((((boot 0xF022#16).setReg 0 0x4000#16).memWrite 0x4000#16 0x0100#16).memWrite 0x4001#16 0x0041#16))
      (fun t => t.conOut == [0x00#8, 0x41#8]) = true := by decide
theorem test_puts_overrun :
    ends (step ((((boot 0xF022#16).setReg 0 0xFFFE#16).memWrite 0xFFFE#16 0x0041#16).memWrite 0xFFFF#16 0x0042#16))
      (fun t => t.fault == some ⟨.putsOverrun, 0xF022#16, 0x3000#16, .start 0xFFFE#16⟩ && t.conOut == []) = true := by
  decide
theorem test_halt : ends (step (boot 0xFF25#16)) (fun t => t.halted && t.pc == 0x3001#16) = true := by decide
theorem test_trap_other : ends (step (boot 0xF023#16))
    (fun t => t.fault == some ⟨.trapUnimplemented, 0xF023#16, 0x3000#16, .vect 0x23#8⟩ && t.pc == 0x3001#16) = true := by
  decide
theorem test_rti : ends (step (boot 0x8FFF#16))
    (fun t => t.fault == some ⟨.rtiUnimplemented, 0x8FFF#16, 0x3000#16, .nothing⟩ && t.pc == 0x3001#16) = true := by
  decide
theorem test_reserved : ends (step (boot 0xD000#16))
    (fun t => t.fault == some ⟨.reservedOpcode, 0xD000#16, 0x3000#16, .nothing⟩ && t.pc == 0x3001#16) = true := by
  decide
theorem test_strict_rejects : ends (step (strictly (boot 0xFF25#16)))
    (fun t => t.fault == some ⟨.illegalEncoding, 0xFF25#16, 0x3000#16, .nothing⟩ && !t.halted) = true := by decide

/-! ### The cycle (2.7) -/

theorem test_fetch_increment_wraps : ends (step { State.reset with pc := 0xFFFF#16 })
    (fun t => t.pc == 0x0000#16) = true := by decide
theorem test_halted_has_no_step : stops (step { State.reset with halted := true }) .halted = true := by decide

/-! ### Cases that meet the hypotheses of the statements -/

theorem witness_ExtensionsFillTheHighBits :
    (1 ≤ 1 ∧ 1 ≤ 16 ∧ 15 < 16) ∧ (1 ≤ 16 ∧ 16 ≤ 16 ∧ 0 < 16) ∧ (sextField 0x0001#16 1).getLsbD 15 = true := by decide

theorem witness_UnreadBitsDoNotMatter :
    (0x1000#16 &&& 0x0FE7#16 = 0x1018#16 &&& 0x0FE7#16 ∧ (0x1000#16).getLsbD 5 = false) ∧
    (0x5000#16 &&& 0x0FE7#16 = 0x5018#16 &&& 0x0FE7#16 ∧ (0x5000#16).getLsbD 5 = false) ∧
    0x997F#16 &&& 0x0FC0#16 = 0x9940#16 &&& 0x0FC0#16 ∧
    (0x41C0#16 &&& 0x09C0#16 = 0x47FF#16 &&& 0x09C0#16 ∧ (0x41C0#16).getLsbD 11 = false) ∧
    0xC1C0#16 &&& 0x01C0#16 = 0xCFFF#16 &&& 0x01C0#16 ∧ 0xF025#16 &&& 0x00FF#16 = 0xFF25#16 &&& 0x00FF#16 ∧
    (0x8000#16).extractLsb' 12 4 = (0x8FFF#16).extractLsb' 12 4 := by decide

theorem witness_DecodeOfEncode :
    (Instr.addi 7 0 0xFFF0#16).wf = true ∧ (Instr.andi 0 7 0x000F#16).wf = true ∧
    (Instr.br true false true 0xFF00#16).wf = true ∧ (Instr.jsr 0x03FF#16).wf = true ∧
    (Instr.ldr 7 7 0xFFE0#16).wf = true ∧ (Instr.reserved 0xDFFF#16).wf = true := by decide

theorem witness_AddWritesTheWrappedSum :
    (0x1FC7#16).extractLsb' 12 4 = 0b0001#4 ∧ (0x1FC7#16).getLsbD 5 = false := by decide
theorem witness_AddiAddsTheSignExtendedImmediate :
    (0x1FFF#16).extractLsb' 12 4 = 0b0001#4 ∧ (0x1FFF#16).getLsbD 5 = true := by decide
theorem witness_AndWritesTheBitwiseAnd :
    (0x5FC7#16).extractLsb' 12 4 = 0b0101#4 ∧ (0x5FC7#16).getLsbD 5 = false := by decide
theorem witness_AndiMasksWithTheSignExtendedImmediate :
    (0x5FFF#16).extractLsb' 12 4 = 0b0101#4 ∧ (0x5FFF#16).getLsbD 5 = true := by decide

theorem witness_NotWritesTheComplement :
    (0x9000#16).extractLsb' 12 4 = 0b1001#4 ∧ (strictly (boot 0x993E#16)).Enabled ∧
    (strictly (boot 0x993E#16)).params.strictFixedBits = true ∧
    (fetched (strictly (boot 0x993E#16))).extractLsb' 12 4 = 0b1001#4 ∧
    (fetched (strictly (boot 0x993E#16))).extractLsb' 0 6 ≠ 0b111111#6 := by decide

theorem witness_NotThenAddOneThenAddSubtracts : (1 : Reg) ≠ 0 ∧ (0 : Reg) ≠ 7 := by decide

theorem witness_BrBranchesIffTheMaskMeetsTheFlags :
    (0x0FFF#16).extractLsb' 12 4 = 0b0000#4 ∧ ((true = true ∧ ccN.n = true) ∨ (false = true ∧ ccN.z = true)) ∧
    ¬ ((true = true ∧ State.reset.cond.n = true) ∨ (true = true ∧ State.reset.cond.z = true) ∨
      (true = true ∧ State.reset.cond.p = true)) := by decide

theorem witness_JmpAddsOrAssigns :
    (0xCFFF#16).extractLsb' 12 4 = 0b1100#4 ∧ State.reset.params.jmpMode = .add ∧
    ({ Config.params with jmpMode := .assign } : Params).jmpMode = .assign := by decide

theorem witness_JsrLinksAndBranches :
    (0x4C00#16).extractLsb' 12 4 = 0b0100#4 ∧ (0x4C00#16).getLsbD 11 = true := by decide

theorem witness_JsrrLinksAndAssigns :
    (0x47FF#16).extractLsb' 12 4 = 0b0100#4 ∧ (0x47FF#16).getLsbD 11 = false ∧
    State.reset.params.jsrrOrder = .linkFirst ∧ (6 : Reg) ≠ 7 ∧
    ({ Config.params with jsrrOrder := .readFirst } : Params).jsrrOrder = .readFirst := by decide

theorem witness_BrWithEmptyMaskIsANoOp :
    (boot 0x0000#16).Enabled ∧ (fetched (boot 0x0000#16)).extractLsb' 9 7 = 0b0000000#7 ∧
    (strictly (boot 0x01FF#16)).Enabled ∧ (fetched (strictly (boot 0x01FF#16))).extractLsb' 9 7 = 0b0000000#7 := by
  decide

theorem witness_LdLoadsTheCell : (0x2100#16).extractLsb' 12 4 = 0b0010#4 := by decide
theorem witness_LdiLoadsThroughThePointer : (0xA100#16).extractLsb' 12 4 = 0b1010#4 := by decide
theorem witness_LdrLoadsFromBasePlusOffset : (0x6020#16).extractLsb' 12 4 = 0b0110#4 := by decide
theorem witness_LeaWritesTheAddress : (0xE100#16).extractLsb' 12 4 = 0b1110#4 := by decide

theorem witness_StStoresAtPcPlusOffset :
    (0x3100#16).extractLsb' 12 4 = 0b0011#4 ∧ State.reset.pcrel 0xFF00#16 = 0x2F00#16 := by decide
theorem witness_StiStoresThroughThePointer :
    (0xB0FF#16).extractLsb' 12 4 = 0b1011#4 ∧
    (State.reset.memWrite 0x30FF#16 0xFFFF#16).pointer 0x00FF#16 = 0xFFFF#16 := by decide
theorem witness_StrStoresAtBasePlusOffset :
    (0x7020#16).extractLsb' 12 4 = 0b0111#4 ∧ State.reset.based 0 0xFFE0#16 = 0xFFE0#16 := by decide

theorem witness_StoreIsSeenByTheNextFetch :
    ((boot 0x3200#16).setReg 1 0x1021#16).Enabled ∧
    decode (fetched ((boot 0x3200#16).setReg 1 0x1021#16)) = .st 1 0x0000#16 ∧
    ends (step ((boot 0x3200#16).setReg 1 0x1021#16)) (fun t => decide (Accepts t)) = true := by decide

theorem witness_GetcReadsOneByteOrEndsOrBlocks :
    (0xFF20#16).extractLsb' 12 4 = 0b1111#4 ∧ (0xFF20#16).extractLsb' 0 8 = 0x20#8 ∧
    ({ State.reset with conIn := [0x00#8] } : State).conIn = 0x00#8 :: [] ∧
    State.reset.conIn = [] ∧ State.reset.conTail = .free ∧
    ({ State.reset with conTail := .ended } : State).conTail = .ended ∧
    ({ State.reset with conTail := .silent } : State).conTail = .silent := by decide

theorem witness_OutWritesTheLowByteOfR0 :
    (0xFF21#16).extractLsb' 12 4 = 0b1111#4 ∧ (0xFF21#16).extractLsb' 0 8 = 0x21#8 := by decide

/-- The string's terminator at 0xFFFF, the last cell it can have. -/
theorem witness_PutsWritesUpToTheZeroCell :
    (0xFF22#16).extractLsb' 12 4 = 0b1111#4 ∧ (0xFF22#16).extractLsb' 0 8 = 0x22#8 ∧
    (((State.reset.setReg 0 0xFFFE#16).memWrite 0xFFFE#16 0x0041#16).reg 0).toNat + 1 < 65536 ∧
    (∀ k < 1, ((State.reset.setReg 0 0xFFFE#16).memWrite 0xFFFE#16 0x0041#16).memRead
      (0xFFFE#16 + BitVec.ofNat 16 k) ≠ 0x0000#16) ∧
    ((State.reset.setReg 0 0xFFFE#16).memWrite 0xFFFE#16 0x0041#16).memRead
      (0xFFFE#16 + BitVec.ofNat 16 1) = 0x0000#16 := by decide

/-- A walk that starts at 0xFFFF, with no zero cell there. -/
theorem witness_PutsWritesUpToTheZeroCell_overrun :
    ∀ a : Word, (((State.reset.setReg 0 0xFFFF#16).memWrite 0xFFFF#16 0x0042#16).reg 0).toNat ≤ a.toNat →
      ((State.reset.setReg 0 0xFFFF#16).memWrite 0xFFFF#16 0x0042#16).memRead a ≠ 0x0000#16 := by
  intro a h
  have h' : 0xFFFF ≤ a.toNat := h
  have ha : a = 0xFFFF#16 := BitVec.eq_of_toNat_eq (by have := a.isLt; show a.toNat = 0xFFFF; omega)
  subst ha
  decide

theorem witness_HaltSetsHalted :
    (0xFF25#16).extractLsb' 12 4 = 0b1111#4 ∧ (0xFF25#16).extractLsb' 0 8 = 0x25#8 := by decide

theorem witness_OtherTrapVectorsAreFatal :
    (0xF000#16).extractLsb' 12 4 = 0b1111#4 ∧
    (0x24#8 ≠ 0x20#8 ∧ 0x24#8 ≠ 0x21#8 ∧ 0x24#8 ≠ 0x22#8 ∧ 0x24#8 ≠ 0x25#8) ∧
    (boot 0xF024#16).Enabled ∧ Accepts (boot 0xF024#16) ∧ decode (fetched (boot 0xF024#16)) = .trap 0x24#8 ∧
    Accepts (strictly (boot 0xF0FF#16)) := by decide

theorem witness_RtiIsFatal :
    (0x8FFF#16).extractLsb' 12 4 = 0b1000#4 ∧ (boot 0x8FFF#16).Enabled ∧ Accepts (boot 0x8FFF#16) ∧
    (fetched (boot 0x8FFF#16)).extractLsb' 12 4 = 0b1000#4 := by decide

theorem witness_ReservedOpcodeIsFatal :
    (0xDFFF#16).extractLsb' 12 4 = 0b1101#4 ∧ (strictly (boot 0xDFFF#16)).Enabled ∧
    (fetched (strictly (boot 0xDFFF#16))).extractLsb' 12 4 = 0b1101#4 := by decide

theorem witness_SetccSetsExactlyOneFlag :
    codeSetterDest (.ld 3 0x0000#16) = some 3 ∧ ∃ t, exec (.ld 3 0x0000#16) State.reset = .next t :=
  ⟨rfl, _, rfl⟩

theorem witness_OnlyNineInstructionsWriteTheFlags :
    (∃ t, step (boot 0x103F#16) = .next t ∧ t.fault = none) ∧ (∃ t, step (boot 0xF025#16) = .next t) :=
  ⟨⟨_, rfl, rfl⟩, ⟨_, rfl⟩⟩

theorem witness_OneFlagStaysSet :
    (∃ t, step { (boot 0x103F#16) with cond := ccZ } = .next t) ∧ OneHot ccZ :=
  ⟨⟨_, rfl⟩, .inr (.inl ⟨rfl, rfl, rfl⟩)⟩

theorem witness_StepRunsTheDecodedInstruction :
    (boot 0x1283#16).Enabled ∧ Accepts (boot 0x1283#16) ∧ Accepts (strictly (boot 0x1283#16)) := by decide

theorem witness_HaltedOrFaultedMachineHasNoStep :
    (∃ t, step (boot 0x1283#16) = .next t) ∧ ({ State.reset with halted := true } : State).halted = true ∧
    (State.reset.raise .rtiUnimplemented .nothing).fault ≠ none :=
  ⟨⟨_, rfl⟩, rfl, by decide⟩

theorem witness_EnabledMachineStepsUnlessBlocked :
    (∃ t, step (boot 0x1283#16) = .next t) ∧ ({ State.reset with halted := true } : State).halted = true ∧
    (State.reset.raise .rtiUnimplemented .nothing).halted = false ∧
    (State.reset.raise .rtiUnimplemented .nothing).fault ≠ none ∧
    ({ (boot 0xF020#16) with conTail := .silent } : State).Enabled ∧
    Accepts { (boot 0xF020#16) with conTail := .silent } ∧
    decode (fetched { (boot 0xF020#16) with conTail := .silent }) = .trap 0x20#8 ∧
    (boot 0xF020#16).conIn = [] :=
  ⟨⟨_, rfl⟩, rfl, rfl, by decide, by decide, by decide, by decide, rfl⟩

theorem witness_StrictModeRejectsNonCanonicalWords :
    (strictly (boot 0x1018#16)).Enabled ∧ (strictly (boot 0x1018#16)).params.strictFixedBits = true ∧
    canonical (fetched (strictly (boot 0x1018#16))) = false := by decide

theorem witness_ConsoleInputReachesOnlyGetc :
    decode (fetched (boot 0xF021#16)) ≠ .trap 0x20#8 := by decide

/-- `ends` says that there is a next state, and which fault it records. -/
theorem witness_FaultsArePrecise :
    ends (step (boot 0xF023#16))
      (fun t => t.fault == some ⟨.trapUnimplemented, 0xF023#16, 0x3000#16, .vect 0x23#8⟩) = true := by decide

theorem witness_FaultsHaveTheirOneCause :
    (∃ t, step (boot 0x8000#16) = .next t) ∧ Accepts (boot 0x8000#16) ∧
    (∃ t, step (strictly (boot 0x8001#16)) = .next t) ∧ ¬ Accepts (strictly (boot 0x8001#16)) :=
  ⟨⟨_, rfl⟩, by decide, ⟨_, rfl⟩, by decide⟩

theorem witness_StepWritesOnlyTheListedRegister :
    (∃ t, step (boot 0x1283#16) = .next t) ∧ writtenReg (decode (fetched (boot 0x1283#16))) ≠ some 7 ∧
    ends (step (boot 0xD000#16)) (fun t => t.fault.isSome) = true :=
  ⟨⟨_, rfl⟩, by decide, by decide⟩

theorem witness_StepWritesOnlyTheAddressedCell :
    (∃ t, step (boot 0x3200#16) = .next t) ∧
    writtenCell { (boot 0x3200#16) with pc := 0x3001#16 } (decode (fetched (boot 0x3200#16))) ≠ some 0x3000#16 :=
  ⟨⟨_, rfl⟩, by decide⟩

theorem witness_OnlyHaltHalts : ∃ t, step (boot 0xF025#16) = .next t ∧ t.halted = true := ⟨_, rfl, rfl⟩

theorem witness_OnlyControlTransfersLeaveTheSequence :
    (∃ t, step (boot 0xF021#16) = .next t) ∧ isControl (decode (fetched (boot 0xF021#16))) = false :=
  ⟨⟨_, rfl⟩, by decide⟩

theorem witness_ConsoleStreamsOnlyAdvance :
    ∃ t, step { (boot 0xF020#16) with conIn := [0x78#8] } = .next t := ⟨_, rfl⟩

theorem witness_OtherInstructionsIgnoreMemory :
    (makesNoDataAccess (.reserved 0xD000#16) = true ∧ takesRecordWordFromItsCell (.reserved 0xD000#16) = false) ∧
    makesNoDataAccess .rti = true ∧ makesNoDataAccess (.trap 0x20#8) = true ∧
    makesNoDataAccess (.trap 0x23#8) = true ∧
    Memory.read [(5, 0x0001#16)] (State.reset.pc - 1#16).toNat = State.reset.memRead (State.reset.pc - 1#16) := by
  decide

theorem witness_LaunchBuildsTheParametersState :
    (∀ c ∈ [(0x3000#16, 0xF025#16)], c.1 ≠ 0xFFFF#16) ∧
    [(0x3000#16, 0xF025#16)] = [] ++ (0x3000#16, 0xF025#16) :: ([] : List (Word × Word)) ∧
    (∀ c ∈ ([] : List (Word × Word)), c.1 ≠ 0x3000#16) :=
  ⟨fun c hc => by rw [List.mem_singleton.mp hc]; decide, rfl, fun c hc => by cases hc⟩

theorem reset_inv : State.reset.Inv :=
  ⟨rfl, by decide, fun _ h => by cases h⟩

theorem witness_StepKeepsTheInvariant : State.reset.Inv ∧ ∃ t, step State.reset = .next t :=
  ⟨reset_inv, _, rfl⟩

end Sys2Proof.Tests
end

section
/-! Proofs of the step's statements (40_cycle.md): the flags `setcc` gives, what a code-setting instruction does
to the state, and when the machine steps and what it executes. -/

namespace Sys2Proof.Machine

open Sys2Proof.Claims

/-! ### The flags of a result (R97) -/

/-- n is the sign bit of the value. -/
theorem condOf_n (v : Word) : (condOf v).n = v.getLsbD 15 :=
  v.msb_eq_toInt.symm.trans v.msb_eq_getLsbD_last

theorem condOf_z (v : Word) : (condOf v).z = true ↔ v = 0x0000#16 :=
  decide_eq_true_iff

theorem condOf_p (v : Word) : (condOf v).p = true ↔ v.getLsbD 15 = false ∧ v ≠ 0x0000#16 := by
  have hsign : v.getLsbD 15 = false ↔ 0 ≤ v.toInt := by
    rw [← condOf_n, ← not_lt]; exact decide_eq_false_iff_not
  have hzero : v ≠ 0x0000#16 ↔ 0 ≠ v.toInt := by rw [ne_comm, ← BitVec.toInt_inj.ne]; rfl
  rw [hsign, hzero, ← lt_iff_le_and_ne]
  exact decide_eq_true_iff

/-- The value is negative, zero or positive, and never two of these. -/
theorem condOf_oneHot (v : Word) : OneHot (condOf v) := by
  have hzero : v = 0x0000#16 ↔ v.toInt = 0 := BitVec.toInt_inj.symm
  simp only [OneHot, condOf, hzero, decide_eq_true_iff, decide_eq_false_iff_not]
  omega

/-! ### The code-setting instructions (R28) -/

/-- Each of the nine instructions completes, by writing a result to its DR. -/
theorem exec_codeSetter {i : Instr} {dr : Reg} (hdr : codeSetterDest i = some dr) (s : State) :
    ∃ v, exec i s = .next (s.writeResult dr v) := by
  cases i with
  | add | addi | and_ | andi | not_ | ld | ldi | ldr | lea => cases hdr; exact ⟨_, rfl⟩
  | br | jmp | jsr | jsrr | st | sti | str | trap | rti | reserved => cases hdr

/-- After a code-setting instruction the flags are those of the value now in DR. -/
theorem cond_of_codeSetter {i : Instr} {dr : Reg} {s t : State} (hdr : codeSetterDest i = some dr)
    (h : exec i s = .next t) : t.cond = condOf (t.reg dr) := by
  obtain ⟨v, hv⟩ := exec_codeSetter hdr s
  obtain rfl : s.writeResult dr v = t := Host.Outcome.next.inj (hv.symm.trans h)
  rw [State.writeResult_cond, State.writeResult_reg_same]

/-- Settles O35: the flags are the three signs of the value, and the nine instructions write value and flags
together. -/
theorem setccSetsExactlyOneFlag : Obligations.SetccSetsExactlyOneFlag :=
  ⟨fun _ v => ⟨condOf_oneHot v, condOf_n v, condOf_z v, condOf_p v⟩,
    fun _ _ _ _ hdr h => cond_of_codeSetter hdr h⟩

/-! ### The step (R91 to R94) -/

/-- An enabled step whose fetched word the strict check lets through executes the decoded word. -/
theorem step_of_accepted {s : State} (hen : s.Enabled) (hacc : Accepts s) :
    step s = exec (decode (fetched s)) s.advance :=
  (step_of_enabled s hen).trans (cycle_of_accepted s (s.rejectsWord_eq_false.mpr hacc))

/-- Settles O38, by the step of an enabled machine on an accepted word. -/
theorem stepRunsTheDecodedInstruction : Obligations.StepRunsTheDecodedInstruction :=
  fun _ hen hacc => step_of_accepted hen hacc

/-- Settles O39: a next state comes from an enabled machine alone. -/
theorem haltedOrFaultedMachineHasNoStep : Obligations.HaltedOrFaultedMachineHasNoStep := by
  refine ⟨fun s hhalted t h => ?_, fun s hfault t h => ?_, fun s t h => enabled_of_step h⟩
  · obtain ⟨hrunning, -⟩ := enabled_of_step h
    exact Bool.false_ne_true (hrunning.symm.trans hhalted)
  · obtain ⟨-, hnone⟩ := enabled_of_step h
    exact hfault hnone

end Sys2Proof.Machine
end

section
/-! Proofs of the operate instructions' statements (41_operate.md): what the delivery of a result does, the range
of a sign-extended field, and ADD, ADDi, AND and ANDi. -/

namespace Sys2Proof.Machine

open Sys2Proof.Claims

/-! ### Delivering a result (R28, R97) -/

/-- `setcc` gives the three flags their meaning. -/
theorem flagsOf_condOf (v : Word) : FlagsOf v (condOf v) :=
  ⟨decide_eq_true_iff, decide_eq_true_iff, decide_eq_true_iff⟩

/-- An instruction that ends by writing a result to DR changes DR and the flags, and nothing else. -/
theorem delivers_of_exec_eq_writeResult {i : Instr} {s : State} {dr : Reg} {v : Word}
    (h : exec i s = .next (s.writeResult dr v)) : Delivers i s dr v := by
  have hothers : SameRegistersBut dr s (s.writeResult dr v) := fun _ hq => s.writeResult_reg_other v hq
  have hmem : SameMemory s (s.writeResult dr v) := s.writeResult_memRead dr v
  have hstatus : SameStatus s (s.writeResult dr v) := ⟨rfl, rfl⟩
  have hconsole : SameConsole s (s.writeResult dr v) := ⟨⟨rfl, rfl, rfl⟩, rfl⟩
  exact ⟨s.writeResult dr v, h, s.writeResult_reg_same dr v, flagsOf_condOf v, hothers,
    s.writeResult_pc dr v, hmem, hstatus, hconsole, s.writeResult_params dr v⟩

/-! ### The range of a sign-extended field (R11, R67) -/

/-- The extension to 16 bits keeps the signed value of a field that is no wider. -/
theorem toInt_signedLow (w : Word) {k : Nat} (hk : k ≤ 16) :
    (signedLow w k).toInt = (w.extractLsb' 0 k).toInt :=
  BitVec.toInt_signExtend_of_le hk

theorem signedRange_of_le {k : Nat} (hk : k ≤ 16) : SignedRange k := fun w => by
  rw [toInt_signedLow w hk]
  exact ⟨BitVec.le_toInt _, BitVec.toInt_lt⟩

/-! ### ADD, ADDi, AND and ANDi (R110 to R113) -/

/-- Settles O9: the decoder's line for ADD, and a result delivered to DR. -/
theorem addWritesTheWrappedSum : Obligations.AddWritesTheWrappedSum :=
  ⟨fun _ hop h5 => decode_add hop h5,
    fun dr sr1 sr2 s => delivers_of_exec_eq_writeResult (exec_add dr sr1 sr2 s)⟩

/-- Settles O10: as for ADD, with an immediate of five bits. -/
theorem addiAddsTheSignExtendedImmediate : Obligations.AddiAddsTheSignExtendedImmediate :=
  ⟨fun _ hop h5 => decode_addi hop h5, signedRange_of_le (by decide),
    fun dr sr1 imm s => delivers_of_exec_eq_writeResult (exec_addi dr sr1 imm s)⟩

/-- Settles O11: the decoder's line for AND, and a result delivered to DR. -/
theorem andWritesTheBitwiseAnd : Obligations.AndWritesTheBitwiseAnd :=
  ⟨fun _ hop h5 => decode_and hop h5,
    fun dr sr1 sr2 s => delivers_of_exec_eq_writeResult (exec_and dr sr1 sr2 s)⟩

/-- Settles O12: as for AND, with an immediate of five bits. -/
theorem andiMasksWithTheSignExtendedImmediate : Obligations.AndiMasksWithTheSignExtendedImmediate :=
  ⟨fun _ hop h5 => decode_andi hop h5, signedRange_of_le (by decide),
    fun dr sr1 imm s => delivers_of_exec_eq_writeResult (exec_andi dr sr1 imm s)⟩

end Sys2Proof.Machine
end

section
/-! Proofs of the control transfers' statements (42_control.md): what a jump and a call do to the state, when BR
is taken, and BR and JSR. -/

namespace Sys2Proof.Machine

open Sys2Proof.Claims

/-! ### Jumps and calls -/

/-- An instruction that ends by assigning the PC changes the PC and nothing else. -/
theorem goesTo_of_exec_eq_setPc {i : Instr} {s : State} {a : Word}
    (h : exec i s = .next (s.setPc a)) : GoesTo i s a := by
  have hregs : SameRegisters s (s.setPc a) := s.setPc_reg a
  have hmem : SameMemory s (s.setPc a) := s.setPc_memRead a
  have hstatus : SameStatus s (s.setPc a) := ⟨rfl, rfl⟩
  have hconsole : SameConsole s (s.setPc a) := ⟨⟨rfl, rfl, rfl⟩, rfl⟩
  exact ⟨s.setPc a, h, s.setPc_pc a, hregs, s.setPc_cond a, hmem, hstatus, hconsole, s.setPc_params a⟩

/-- An instruction that ends by linking and assigning the PC changes R7 and the PC, and nothing else. -/
theorem calls_of_exec_eq_link_setPc {i : Instr} {s : State} {a : Word}
    (h : exec i s = .next (s.link.setPc a)) : Calls i s a := by
  have hothers : SameRegistersBut 7 s (s.link.setPc a) := fun _ hq => s.link_reg_other hq
  have hmem : SameMemory s (s.link.setPc a) := s.link_memRead
  have hstatus : SameStatus s (s.link.setPc a) := ⟨rfl, rfl⟩
  have hconsole : SameConsole s (s.link.setPc a) := ⟨⟨rfl, rfl, rfl⟩, rfl⟩
  exact ⟨s.link.setPc a, h, s.link.setPc_pc a, s.link_reg_same, hothers, s.link_cond, hmem, hstatus,
    hconsole, s.link_params⟩

/-! ### BR (R120) -/

/-- The mask meets the flags: some selected flag is set. -/
theorem branchTaken_iff (n z p : Bool) (c : Cond) :
    branchTaken n z p c = true ↔
      (n = true ∧ c.n = true) ∨ (z = true ∧ c.z = true) ∨ (p = true ∧ c.p = true) := by
  simp only [branchTaken, Bool.or_eq_true, Bool.and_eq_true, or_assoc]

theorem exec_br_taken {n z p : Bool} {s : State} (off : Word) (h : branchTaken n z p s.cond = true) :
    exec (.br n z p off) s = .next (s.setPc (s.pc + off)) := by
  rw [exec_br, if_pos h, State.pcrel]

/-- Untaken, BR assigns the PC the value it has. -/
theorem exec_br_untaken {n z p : Bool} {s : State} (off : Word) (h : ¬ branchTaken n z p s.cond = true) :
    exec (.br n z p off) s = .next (s.setPc s.pc) := by
  rw [exec_br, if_neg h]
  rfl

/-- Settles O15: the decoder's line for BR, and a jump to the target or, untaken, to the PC as it was. -/
theorem brBranchesIffTheMaskMeetsTheFlags : Obligations.BrBranchesIffTheMaskMeetsTheFlags :=
  ⟨fun _ hop => decode_br hop, signedRange_of_le (by decide), fun n z p off s =>
    ⟨fun htaken => goesTo_of_exec_eq_setPc (exec_br_taken off ((branchTaken_iff n z p s.cond).mpr htaken)),
      fun huntaken =>
        goesTo_of_exec_eq_setPc (exec_br_untaken off ((branchTaken_iff n z p s.cond).not.mpr huntaken))⟩⟩

/-! ### JSR (R122) -/

/-- Settles O17: the decoder's line for JSR, and a call of the address relative to the incremented PC. -/
theorem jsrLinksAndBranches : Obligations.JsrLinksAndBranches :=
  ⟨fun _ hop h11 => decode_jsr hop h11, signedRange_of_le (by decide),
    fun off s => calls_of_exec_eq_link_setPc (exec_jsr off s)⟩

end Sys2Proof.Machine
end

section
/-! Proofs of the loads' statements (43_load.md): LD, LDI, LDR and LEA each deliver a result to DR, and LEA does
so without looking at the memory. -/

namespace Sys2Proof.Machine

open Sys2Proof.Claims

/-! ### LD, LDI and LDR (R130 to R132) -/

/-- Settles O20: the decoder's line for LD, and the cell at `pc + off` delivered to DR. -/
theorem ldLoadsTheCell : Obligations.LdLoadsTheCell :=
  ⟨fun _ hop => decode_ld hop, signedRange_of_le (by decide),
    fun dr off s => delivers_of_exec_eq_writeResult (exec_ld dr off s)⟩

/-- Settles O21: as for LD, with the cell that the pointer names. -/
theorem ldiLoadsThroughThePointer : Obligations.LdiLoadsThroughThePointer :=
  ⟨fun _ hop => decode_ldi hop, signedRange_of_le (by decide),
    fun dr off s => delivers_of_exec_eq_writeResult (exec_ldi dr off s)⟩

/-- Settles O22: as for LD, with an offset of six bits from the base register. -/
theorem ldrLoadsFromBasePlusOffset : Obligations.LdrLoadsFromBasePlusOffset :=
  ⟨fun _ hop => decode_ldr hop, signedRange_of_le (by decide),
    fun dr base off s => delivers_of_exec_eq_writeResult (exec_ldr dr base off s)⟩

/-! ### LEA (R133) -/

/-- Writing a result and replacing the memory commute. -/
theorem State.writeResult_with_mem (s : State) (m : Memory) (dr : Reg) (v : Word) :
    State.writeResult { s with mem := m } dr v = { s.writeResult dr v with mem := m } := rfl

/-- The address LEA writes is relative to the PC, which the memory is no part of. -/
theorem exec_lea_with_mem (dr : Reg) (off : Word) (s : State) (m : Memory) :
    exec (.lea dr off) { s with mem := m } =
      mapNext (fun t => { t with mem := m }) (exec (.lea dr off) s) := by
  have haddress : State.pcrel { s with mem := m } off = s.pcrel off := rfl
  rw [exec_lea, exec_lea, haddress, State.writeResult_with_mem, mapNext]

/-- Settles O23: the decoder's line for LEA, the address delivered to DR, and no use of the memory. -/
theorem leaWritesTheAddress : Obligations.LeaWritesTheAddress :=
  ⟨fun _ hop => decode_lea hop, signedRange_of_le (by decide),
    fun dr off s => delivers_of_exec_eq_writeResult (exec_lea dr off s), exec_lea_with_mem⟩

end Sys2Proof.Machine
end

section
/-! Proofs of the stores' statements (44_store.md): what the write of a cell leaves unchanged, and ST, STI and
STR. -/

namespace Sys2Proof.Machine

open Sys2Proof.Claims

/-- An instruction that ends by writing a cell changes that cell and nothing else. -/
theorem stores_of_exec_eq_memWrite {i : Instr} {s : State} {a v : Word}
    (h : exec i s = .next (s.memWrite a v)) : Stores i s a v := by
  have hothers : SameMemoryBut a s (s.memWrite a v) := fun _ hb => s.memWrite_memRead_other v hb
  have hregs : SameRegisters s (s.memWrite a v) := s.memWrite_reg a v
  have hstatus : SameStatus s (s.memWrite a v) := ⟨rfl, rfl⟩
  have hconsole : SameConsole s (s.memWrite a v) := ⟨⟨rfl, rfl, rfl⟩, rfl⟩
  exact ⟨s.memWrite a v, h, s.memWrite_memRead_same a v, hothers, hregs, s.memWrite_pc a v,
    s.memWrite_cond a v, hstatus, hconsole, s.memWrite_params a v⟩

/-- Settles O24: the decoder's line for ST, and SR written to the cell at `pc + off`. -/
theorem stStoresAtPcPlusOffset : Obligations.StStoresAtPcPlusOffset := by
  refine ⟨fun _ hop => decode_st hop, signedRange_of_le (by decide), ?_⟩
  rintro sr off s a rfl
  exact ⟨by rw [State.pcrel], stores_of_exec_eq_memWrite (exec_st sr off s)⟩

/-- Settles O25: as for ST, with the cell that the pointer names in the state before the write. -/
theorem stiStoresThroughThePointer : Obligations.StiStoresThroughThePointer := by
  refine ⟨fun _ hop => decode_sti hop, signedRange_of_le (by decide), ?_⟩
  rintro sr off s a rfl
  exact ⟨by rw [State.pointer, State.pcrel], stores_of_exec_eq_memWrite (exec_sti sr off s)⟩

/-- Settles O26: as for ST, with an offset of six bits from the base register. -/
theorem strStoresAtBasePlusOffset : Obligations.StrStoresAtBasePlusOffset := by
  refine ⟨fun _ hop => decode_str hop, signedRange_of_le (by decide), ?_⟩
  rintro sr base off s a rfl
  exact ⟨by rw [State.based], stores_of_exec_eq_memWrite (exec_str sr base off s)⟩

end Sys2Proof.Machine
end

section
/-! Proofs of the trap system's statements (45_trap_system.md): the vector of a TRAP word, and HALT. -/

namespace Sys2Proof.Machine

open Sys2Proof.Claims

/-- A TRAP word decodes to the vector in its low byte, whatever its bits[11:8] (R68, R150). -/
theorem decode_trap_of_vector {w : Word} {v : Byte} (hop : w.extractLsb' 12 4 = 0b1111#4)
    (hvector : w.extractLsb' 0 8 = v) : decode w = .trap v :=
  (decode_trap hop).trans (congrArg Instr.trap hvector)

/-- Halting leaves a machine without a step (R91). -/
theorem step_halt_ne_next (s u : State) : step s.halt ≠ .next u :=
  have ⟨hnoStep, _, _⟩ := haltedOrFaultedMachineHasNoStep
  hnoStep s.halt s.halt_halted u

/-- Settles O31: the decoder's line for TRAP, and a halt, which changes `halted` alone and ends the steps. -/
theorem haltSetsHalted : Obligations.HaltSetsHalted := by
  refine ⟨fun _ hop hvector => decode_trap_of_vector hop hvector, fun s => ?_⟩
  have hregs : SameRegisters s s.halt := s.halt_reg
  have hmem : SameMemory s s.halt := s.halt_memRead
  have hconsole : SameConsole s s.halt :=
    ⟨⟨s.halt_conIn, s.halt_conTail, s.halt_conReads⟩, s.halt_conOut⟩
  exact ⟨s.halt, exec_halt s, s.halt_halted, s.halt_fault, hregs, s.halt_pc, s.halt_cond, hmem, hconsole,
    s.halt_params, step_halt_ne_next s⟩

end Sys2Proof.Machine
end

section
/-! Proofs of the Decoder's and the encoder's statements (30_encoding.md): the one list of what a word decodes to,
the fields of a word that the encoder puts together, what the strict check looks at, and the rows of the
opcode table. -/

namespace Sys2Proof

open Sys2Proof.Claims Sys2Proof.Laws

/-! ### What a word can decode to -/

/-- The one list of what a word decodes to (R76): each variant with the bits that select it and the fields
it reads. -/
inductive DecodesTo (w : Word) : Instr → Prop where
  | br (hop : w.extractLsb' 12 4 = 0b0000#4) :
    DecodesTo w (.br (w.getLsbD 11) (w.getLsbD 10) (w.getLsbD 9) (sextField w 9))
  | add (hop : w.extractLsb' 12 4 = 0b0001#4) (h5 : w.getLsbD 5 = false) :
    DecodesTo w (.add (regField w 9) (regField w 6) (regField w 0))
  | addi (hop : w.extractLsb' 12 4 = 0b0001#4) (h5 : w.getLsbD 5 = true) :
    DecodesTo w (.addi (regField w 9) (regField w 6) (sextField w 5))
  | ld (hop : w.extractLsb' 12 4 = 0b0010#4) : DecodesTo w (.ld (regField w 9) (sextField w 9))
  | st (hop : w.extractLsb' 12 4 = 0b0011#4) : DecodesTo w (.st (regField w 9) (sextField w 9))
  | jsrr (hop : w.extractLsb' 12 4 = 0b0100#4) (h11 : w.getLsbD 11 = false) : DecodesTo w (.jsrr (regField w 6))
  | jsr (hop : w.extractLsb' 12 4 = 0b0100#4) (h11 : w.getLsbD 11 = true) : DecodesTo w (.jsr (sextField w 11))
  | and_ (hop : w.extractLsb' 12 4 = 0b0101#4) (h5 : w.getLsbD 5 = false) :
    DecodesTo w (.and_ (regField w 9) (regField w 6) (regField w 0))
  | andi (hop : w.extractLsb' 12 4 = 0b0101#4) (h5 : w.getLsbD 5 = true) :
    DecodesTo w (.andi (regField w 9) (regField w 6) (sextField w 5))
  | ldr (hop : w.extractLsb' 12 4 = 0b0110#4) : DecodesTo w (.ldr (regField w 9) (regField w 6) (sextField w 6))
  | str (hop : w.extractLsb' 12 4 = 0b0111#4) : DecodesTo w (.str (regField w 9) (regField w 6) (sextField w 6))
  | rti (hop : w.extractLsb' 12 4 = 0b1000#4) : DecodesTo w .rti
  | not_ (hop : w.extractLsb' 12 4 = 0b1001#4) : DecodesTo w (.not_ (regField w 9) (regField w 6))
  | ldi (hop : w.extractLsb' 12 4 = 0b1010#4) : DecodesTo w (.ldi (regField w 9) (sextField w 9))
  | sti (hop : w.extractLsb' 12 4 = 0b1011#4) : DecodesTo w (.sti (regField w 9) (sextField w 9))
  | jmp (hop : w.extractLsb' 12 4 = 0b1100#4) : DecodesTo w (.jmp (regField w 6))
  | reserved (hop : w.extractLsb' 12 4 = 0b1101#4) : DecodesTo w (.reserved w)
  | lea (hop : w.extractLsb' 12 4 = 0b1110#4) : DecodesTo w (.lea (regField w 9) (sextField w 9))
  | trap (hop : w.extractLsb' 12 4 = 0b1111#4) : DecodesTo w (.trap (vectField w))

theorem decodesTo_decode (w : Word) : DecodesTo w (decode w) := by
  have hop : ∀ o, Opcode.ofBits (opcodeBits w) = o → opcodeBits w = o.bits := fun o =>
    (Opcode.ofBits_eq_iff _ o).mp
  cases ho : Opcode.ofBits (opcodeBits w) with
  | br => rw [decode_br (hop _ ho)]; exact .br (hop _ ho)
  | add =>
    cases h5 : w.getLsbD 5 with
    | false => rw [decode_add (hop _ ho) h5]; exact .add (hop _ ho) h5
    | true => rw [decode_addi (hop _ ho) h5]; exact .addi (hop _ ho) h5
  | ld => rw [decode_ld (hop _ ho)]; exact .ld (hop _ ho)
  | st => rw [decode_st (hop _ ho)]; exact .st (hop _ ho)
  | jsr =>
    cases h11 : w.getLsbD 11 with
    | false => rw [decode_jsrr (hop _ ho) h11]; exact .jsrr (hop _ ho) h11
    | true => rw [decode_jsr (hop _ ho) h11]; exact .jsr (hop _ ho) h11
  | and_ =>
    cases h5 : w.getLsbD 5 with
    | false => rw [decode_and (hop _ ho) h5]; exact .and_ (hop _ ho) h5
    | true => rw [decode_andi (hop _ ho) h5]; exact .andi (hop _ ho) h5
  | ldr => rw [decode_ldr (hop _ ho)]; exact .ldr (hop _ ho)
  | str => rw [decode_str (hop _ ho)]; exact .str (hop _ ho)
  | rti => rw [decode_rti (hop _ ho)]; exact .rti (hop _ ho)
  | not_ => rw [decode_not (hop _ ho)]; exact .not_ (hop _ ho)
  | ldi => rw [decode_ldi (hop _ ho)]; exact .ldi (hop _ ho)
  | sti => rw [decode_sti (hop _ ho)]; exact .sti (hop _ ho)
  | jmp => rw [decode_jmp (hop _ ho)]; exact .jmp (hop _ ho)
  | reserved => rw [decode_reserved (hop _ ho)]; exact .reserved (hop _ ho)
  | lea => rw [decode_lea (hop _ ho)]; exact .lea (hop _ ho)
  | trap => rw [decode_trap (hop _ ho)]; exact .trap (hop _ ho)

/-- Settles O1, each word by the decoder's evaluation. -/
theorem wordsOfEveryFormatDecode : Obligations.WordsOfEveryFormatDecode := by
  unfold Obligations.WordsOfEveryFormatDecode
  decide

/-! ### Extensions (R11) -/

/-- Below its field a sign extension is the word; from there on it repeats the field's top bit. -/
theorem getLsbD_sextField (w : Word) {k i : Nat} (hk : 1 ≤ k) (hi : i < 16) :
    (sextField w k).getLsbD i = if i < k then w.getLsbD i else w.getLsbD (k - 1) := by
  have htop : k - 1 < k := by omega
  rw [sextField, BitVec.getLsbD_signExtend, decide_eq_true hi, Bool.true_and]
  by_cases h : i < k
  · simp only [h, if_true, BitVec.getLsbD_extractLsb', decide_true, Bool.true_and, Nat.zero_add]
  · simp only [h, if_false, BitVec.msb_eq_getLsbD_last, BitVec.getLsbD_extractLsb', htop, decide_true,
      Bool.true_and, Nat.zero_add]

theorem getLsbD_zextByte (b : Byte) (i : Nat) :
    (Machine.zextByte b).getLsbD i = (decide (i < 8) && b.getLsbD i) := by
  by_cases h : i < 8
  · simp [Machine.zextByte, h, show i < 16 by omega]
  · simp [Machine.zextByte, h, BitVec.getLsbD_of_ge b i (Nat.le_of_not_lt h)]

/-- Settles O4, bit by bit. -/
theorem extensionsFillTheHighBits : Obligations.ExtensionsFillTheHighBits :=
  ⟨fun w _ _ hk _ hi => getLsbD_sextField w hk hi, getLsbD_zextByte⟩

/-- A sign extension has the field it was made from as its low bits (R67). -/
theorem extractLsb'_sextField (w : Word) {k : Nat} (hk : k ≤ 16) :
    (sextField w k).extractLsb' 0 k = w.extractLsb' 0 k := by
  apply BitVec.eq_of_getLsbD_eq
  intro i hi
  rw [BitVec.getLsbD_extractLsb', BitVec.getLsbD_extractLsb', Nat.zero_add,
    getLsbD_sextField w (by omega) (by omega), if_pos hi]

theorem fitsSigned_sextField (w : Word) {k : Nat} (hk : k ≤ 16) : fitsSigned k (sextField w k) = true := by
  rw [fitsSigned, extractLsb'_sextField w hk, sextField, beq_self_eq_true]

/-! ### What decoding keeps (R62 to R68, R76) -/

/-- A word decodes to a well-formed instruction. -/
theorem DecodesTo.wf {w : Word} {i : Instr} (h : DecodesTo w i) : i.wf = true := by
  cases h with
  | addi | andi | br | jsr | ld | ldi | lea | st | sti | ldr | str => exact fitsSigned_sextField w (by decide)
  | reserved hop => exact beq_iff_eq.mpr hop
  | add | and_ | not_ | jmp | jsrr | trap | rti => rfl

theorem DecodesTo.opcode_bits {w : Word} {i : Instr} (h : DecodesTo w i) : i.opcode.bits = opcodeBits w := by
  cases h <;> rename w.extractLsb' 12 4 = _ => hop <;> exact hop.symm

/-- Settles O2, variant by variant. -/
theorem decodingIsTotalAndKeepsTheOpcode : Obligations.DecodingIsTotalAndKeepsTheOpcode := fun w =>
  ⟨(decodesTo_decode w).opcode_bits, (decodesTo_decode w).wf⟩

/-- Settles O3, variant by variant: the fields of each are read from the bits the statement names. -/
theorem decodedFieldsStandAtTheirBits : Obligations.DecodedFieldsStandAtTheirBits := by
  intro w
  have h := decodesTo_decode w
  generalize decode w = i at h
  cases h with
  | add _ h5 | and_ _ h5 | addi _ h5 | andi _ h5 => exact ⟨h5, rfl, rfl, rfl⟩
  | jsr hop h11 | jsrr hop h11 => exact ⟨hop, h11, rfl⟩
  | br => exact ⟨rfl, rfl, rfl, rfl⟩
  | ldr | str => exact ⟨rfl, rfl, rfl⟩
  | not_ | ld | ldi | lea | st | sti => exact ⟨rfl, rfl⟩
  | jmp | trap | reserved => exact rfl
  | rti => trivial

/-! ### Fields of a word that is put together -/

/-- A field put beside others is read back where nothing else was put. -/
@[simp] theorem extractLsb'_or_place_same (w : Word) (lo : Nat) {k : Nat} (f : BitVec k) (h : lo + k ≤ 16)
    (hw : w.extractLsb' lo k = 0#k) : (w ||| place lo f).extractLsb' lo k = f := by
  rw [BitVec.extractLsb'_or, hw, extract_place_same lo f h, BitVec.zero_or]

/-- A field put elsewhere does not matter. -/
@[simp] theorem extractLsb'_or_place_apart (w : Word) (lo : Nat) {k : Nat} (f : BitVec k) (lo' k' : Nat)
    (h : lo' + k' ≤ lo ∨ lo + k ≤ lo') : (w ||| place lo f).extractLsb' lo' k' = w.extractLsb' lo' k' := by
  rw [BitVec.extractLsb'_or, extract_place_apart lo f lo' k' h, BitVec.or_zero]

@[simp] theorem regField_or_place_same (w : Word) (lo : Nat) (r : Reg) (h : lo + 3 ≤ 16)
    (hw : w.extractLsb' lo 3 = 0#3) : regField (w ||| place lo (regBits r)) lo = r := by
  rw [regField, extractLsb'_or_place_same w lo _ h hw, toFin_regBits]

@[simp] theorem regField_or_place_apart (w : Word) (lo : Nat) {k : Nat} (f : BitVec k) (lo' : Nat)
    (h : lo' + 3 ≤ lo ∨ lo + k ≤ lo') : regField (w ||| place lo f) lo' = regField w lo' := by
  rw [regField, extractLsb'_or_place_apart w lo f lo' 3 h, regField]

/-- The immediate is the sign extension of its field (R67). -/
theorem sextField_or_place {k : Nat} {v : Word} (w : Word) (hv : fitsSigned k v = true) (hk : k ≤ 16)
    (hw : w.extractLsb' 0 k = 0#k) : sextField (w ||| place 0 (immBits k v)) k = v := by
  rw [sextField, extractLsb'_or_place_same w 0 _ (by omega) hw]
  exact (beq_iff_eq.mp hv).symm

/-- Settles O7, instruction by instruction: the encoder's word has the instruction's opcode, and each field is
read back from where it was put. -/
theorem decodeOfEncode : Obligations.DecodeOfEncode := by
  intro i hi
  cases i with
  | add dr sr1 sr2 =>
    have h5 : (encode (.add dr sr1 sr2)).getLsbD 5 = false := by
      simp [encode, getLsbD_place, -BitVec.getLsbD_eq_getElem]
    rw [decode_add (EncodeOpcode.add dr sr1 sr2 hi) h5]
    simp [encode, extract_place_apart]
  | addi dr sr1 imm =>
    have h5 : (encode (.addi dr sr1 imm)).getLsbD 5 = true := by
      simp [encode, getLsbD_place, -BitVec.getLsbD_eq_getElem]
    rw [decode_addi (EncodeOpcode.addi dr sr1 imm hi) h5]
    simp [encode, extract_place_apart, sextField_or_place _ hi]
  | and_ dr sr1 sr2 =>
    have h5 : (encode (.and_ dr sr1 sr2)).getLsbD 5 = false := by
      simp [encode, getLsbD_place, -BitVec.getLsbD_eq_getElem]
    rw [decode_and (EncodeOpcode.and_ dr sr1 sr2 hi) h5]
    simp [encode, extract_place_apart]
  | andi dr sr1 imm =>
    have h5 : (encode (.andi dr sr1 imm)).getLsbD 5 = true := by
      simp [encode, getLsbD_place, -BitVec.getLsbD_eq_getElem]
    rw [decode_andi (EncodeOpcode.andi dr sr1 imm hi) h5]
    simp [encode, extract_place_apart, sextField_or_place _ hi]
  | br n z p off =>
    have hn : (encode (.br n z p off)).getLsbD 11 = n := by
      simp [encode, getLsbD_place, immBits, -BitVec.getLsbD_eq_getElem]
    have hz : (encode (.br n z p off)).getLsbD 10 = z := by
      simp [encode, getLsbD_place, immBits, -BitVec.getLsbD_eq_getElem]
    have hp : (encode (.br n z p off)).getLsbD 9 = p := by
      simp [encode, getLsbD_place, immBits, -BitVec.getLsbD_eq_getElem]
    rw [decode_br (EncodeOpcode.br n z p off hi), hn, hz, hp]
    simp [encode, extract_place_apart, sextField_or_place _ hi]
  | jsr off =>
    have h11 : (encode (.jsr off)).getLsbD 11 = true := by
      simp [encode, getLsbD_place, -BitVec.getLsbD_eq_getElem]
    rw [decode_jsr (EncodeOpcode.jsr off hi) h11]
    simp [encode, extract_place_apart, sextField_or_place _ hi]
  | jsrr base =>
    have h11 : (encode (.jsrr base)).getLsbD 11 = false := by
      simp [encode, getLsbD_place, -BitVec.getLsbD_eq_getElem]
    rw [decode_jsrr (EncodeOpcode.jsrr base hi) h11]
    simp [encode, extract_place_apart]
  | not_ dr sr => rw [decode_not (EncodeOpcode.not_ dr sr hi)]; simp [encode, extract_place_apart]
  | jmp base => rw [decode_jmp (EncodeOpcode.jmp base hi)]; simp [encode, extract_place_apart]
  | ld dr off =>
    rw [decode_ld (EncodeOpcode.ld dr off hi)]
    simp [encode, extract_place_apart, sextField_or_place _ hi]
  | ldi dr off =>
    rw [decode_ldi (EncodeOpcode.ldi dr off hi)]
    simp [encode, extract_place_apart, sextField_or_place _ hi]
  | lea dr off =>
    rw [decode_lea (EncodeOpcode.lea dr off hi)]
    simp [encode, extract_place_apart, sextField_or_place _ hi]
  | st sr off =>
    rw [decode_st (EncodeOpcode.st sr off hi)]
    simp [encode, extract_place_apart, sextField_or_place _ hi]
  | sti sr off =>
    rw [decode_sti (EncodeOpcode.sti sr off hi)]
    simp [encode, extract_place_apart, sextField_or_place _ hi]
  | ldr dr base off =>
    rw [decode_ldr (EncodeOpcode.ldr dr base off hi)]
    simp [encode, extract_place_apart, sextField_or_place _ hi]
  | str sr base off =>
    rw [decode_str (EncodeOpcode.str sr base off hi)]
    simp [encode, extract_place_apart, sextField_or_place _ hi]
  | trap v => rw [decode_trap (EncodeOpcode.trap v hi)]; simp [encode, vectField, extract_place_apart]
  | rti => exact decode_rti (EncodeOpcode.rti hi)
  | reserved word => exact decode_reserved (EncodeOpcode.reserved word hi)

/-! ### The encoder on canonical words -/

/-- The words agree on consecutive fields of the given widths, from bit `lo` up. -/
@[simp] def SameFields (v w : Word) : Nat → List Nat → Prop
  | _, [] => True
  | lo, k :: ks => v.extractLsb' lo k = w.extractLsb' lo k ∧ SameFields v w (lo + k) ks

theorem extractLsb'_eq_iff (v w : Word) (lo k : Nat) :
    v.extractLsb' lo k = w.extractLsb' lo k ↔ ∀ i, lo ≤ i → i < lo + k → v.getLsbD i = w.getLsbD i := by
  rw [extract_eq_iff_bits]
  constructor
  · intro h i hlo hi
    obtain ⟨j, rfl⟩ := Nat.exists_eq_add_of_le hlo
    have hj : j < k := by omega
    simpa [hj, -BitVec.getLsbD_eq_getElem] using h ⟨j, hj⟩
  · intro h i
    simp [h (lo + i) (by omega) (by omega), -BitVec.getLsbD_eq_getElem]

/-- Agreement on consecutive fields is agreement on their bits. -/
theorem sameFields_iff (v w : Word) (lo : Nat) (ks : List Nat) :
    SameFields v w lo ks ↔ ∀ i, lo ≤ i → i < lo + ks.sum → v.getLsbD i = w.getLsbD i := by
  induction ks generalizing lo with
  | nil => exact iff_of_true trivial fun i h h' => absurd h' (by simpa using h)
  | cons k ks ih =>
    rw [SameFields, extractLsb'_eq_iff, ih, List.sum_cons]
    constructor
    · rintro ⟨hfirst, hrest⟩ i hlo hi
      by_cases h : i < lo + k
      · exact hfirst i hlo h
      · exact hrest i (by omega) (by omega)
    · exact fun h => ⟨fun i hlo hi => h i hlo (by omega), fun i hlo hi => h i (by omega) (by omega)⟩

/-- Words are equal when they agree on fields that fill the word. -/
theorem eq_iff_sameFields {v w : Word} (ks : List Nat) (h : ks.sum = 16) : v = w ↔ SameFields v w 0 ks := by
  rw [sameFields_iff, h]
  exact ⟨fun e i _ _ => by rw [e],
    fun h => BitVec.eq_of_getLsbD_eq fun i hi => h i (Nat.zero_le i) (by omega)⟩

/-! ### What the strict check looks at (R70, R71) -/

/-- ADD and AND in register mode. -/
theorem canonical_of_registerMode {w : Word} (hop : opcodeBits w = 0b0001#4 ∨ opcodeBits w = 0b0101#4)
    (h5 : w.getLsbD 5 = false) : canonical w = (w.extractLsb' 3 2 == 0b00#2) := by
  rcases hop with hop | hop <;> simp only [canonical, hop, Opcode.ofBits, h5, Bool.false_or]

/-- ADD and AND in immediate mode. -/
theorem canonical_of_immediateMode {w : Word} (hop : opcodeBits w = 0b0001#4 ∨ opcodeBits w = 0b0101#4)
    (h5 : w.getLsbD 5 = true) : canonical w = true := by
  rcases hop with hop | hop <;> simp only [canonical, hop, Opcode.ofBits, h5, Bool.true_or]

theorem canonical_not {w : Word} (hop : opcodeBits w = 0b1001#4) :
    canonical w = (w.extractLsb' 0 6 == 0b111111#6) := by
  simp only [canonical, hop, Opcode.ofBits]

theorem canonical_jmp {w : Word} (hop : opcodeBits w = 0b1100#4) :
    canonical w = (w.extractLsb' 9 3 == 0b000#3 && w.extractLsb' 0 6 == 0b000000#6) := by
  simp only [canonical, hop, Opcode.ofBits]

theorem canonical_jsr {w : Word} (hop : opcodeBits w = 0b0100#4) (h11 : w.getLsbD 11 = true) :
    canonical w = true := by
  simp only [canonical, hop, Opcode.ofBits, h11, Bool.true_or]

theorem canonical_jsrr {w : Word} (hop : opcodeBits w = 0b0100#4) (h11 : w.getLsbD 11 = false) :
    canonical w = (w.extractLsb' 9 2 == 0b00#2 && w.extractLsb' 0 6 == 0b000000#6) := by
  simp only [canonical, hop, Opcode.ofBits, h11, Bool.false_or]

theorem canonical_trap {w : Word} (hop : opcodeBits w = 0b1111#4) :
    canonical w = (w.extractLsb' 8 4 == 0b0000#4) := by
  have hop' : Opcode.ofBits (opcodeBits w) = .trap := (Opcode.ofBits_eq_iff _ .trap).mpr hop
  simp only [canonical, hop']

theorem canonical_rti {w : Word} (hop : opcodeBits w = 0b1000#4) :
    canonical w = (w.extractLsb' 0 12 == 0b000000000000#12) := by
  simp only [canonical, hop, Opcode.ofBits]

/-- The opcodes whose formats have no bit marked x in R70, and RESERVED's. -/
def Opcode.readsWholeWord : Opcode → Bool
  | .br | .ld | .st | .ldr | .str | .ldi | .sti | .lea | .reserved => true
  | .add | .and_ | .not_ | .jmp | .jsr | .trap | .rti => false

/-- A word all of whose bits are read is canonical. -/
theorem DecodesTo.canonical_of_readsWholeWord {w : Word} {i : Instr} (h : DecodesTo w i)
    (hi : i.opcode.readsWholeWord = true) : canonical w = true := by
  have hop : Opcode.ofBits (opcodeBits w) = i.opcode := (Opcode.ofBits_eq_iff _ _).mpr h.opcode_bits.symm
  rw [canonical, hop]
  generalize i.opcode = o at hi
  cases o with
  | add | jsr | and_ | not_ | jmp | trap | rti => cases hi
  | br | ld | st | ldr | str | ldi | sti | lea | reserved => rfl

/-! ### Encoding what was decoded -/

@[simp] theorem regBits_regField (w : Word) (lo : Nat) : regBits (regField w lo) = w.extractLsb' lo 3 := rfl

@[simp] theorem immBits_sextField (w : Word) {k : Nat} (hk : k ≤ 16) :
    immBits k (sextField w k) = w.extractLsb' 0 k :=
  extractLsb'_sextField w hk

/-- A field of one bit. -/
theorem extractLsb'_one {w : Word} {i : Nat} {b : Bool} (h : w.getLsbD i = b) :
    w.extractLsb' i 1 = BitVec.ofBool b := by
  apply BitVec.eq_of_getLsbD_eq
  intro j hj
  obtain rfl : j = 0 := by omega
  simpa [-BitVec.getLsbD_eq_getElem] using h

/-- The encoder puts a word's fields back where the decoder read them, and canonical values between them. -/
theorem DecodesTo.eq_encode_iff {w : Word} {i : Instr} (h : DecodesTo w i) :
    w = encode i ↔ canonical w = true := by
  have hread := h.canonical_of_readsWholeWord
  cases h with
  | add hop h5 | and_ hop h5 =>
    have h5' : w.extractLsb' 5 1 = 0#1 := extractLsb'_one h5
    rw [canonical_of_registerMode (by simp [opcodeBits, hop]) h5, eq_iff_sameFields [3, 2, 1, 3, 3, 4] rfl]
    simp [encode, extract_place_apart, extract_place_same, hop, h5']
  | addi hop h5 | andi hop h5 =>
    have h5' : w.extractLsb' 5 1 = 1#1 := extractLsb'_one h5
    rw [canonical_of_immediateMode (by simp [opcodeBits, hop]) h5, eq_iff_sameFields [5, 1, 3, 3, 4] rfl]
    simp [encode, extract_place_apart, extract_place_same, hop, h5']
  | jmp hop =>
    rw [canonical_jmp hop, eq_iff_sameFields [6, 3, 3, 4] rfl]
    simp [encode, extract_place_apart, extract_place_same, hop, and_comm]
  | jsr hop h11 =>
    have h11' : w.extractLsb' 11 1 = 1#1 := extractLsb'_one h11
    rw [canonical_jsr hop h11, eq_iff_sameFields [11, 1, 4] rfl]
    simp [encode, extract_place_apart, extract_place_same, hop, h11']
  | jsrr hop h11 =>
    have h11' : w.extractLsb' 11 1 = 0#1 := extractLsb'_one h11
    rw [canonical_jsrr hop h11, eq_iff_sameFields [6, 3, 2, 1, 4] rfl]
    simp [encode, extract_place_apart, extract_place_same, hop, h11', and_comm]
  | not_ hop =>
    rw [canonical_not hop, eq_iff_sameFields [6, 3, 3, 4] rfl]
    simp [encode, extract_place_apart, extract_place_same, hop]
  | trap hop =>
    rw [canonical_trap hop, eq_iff_sameFields [8, 4, 4] rfl]
    simp [encode, vectField, extract_place_apart, extract_place_same, hop]
  | rti hop =>
    rw [canonical_rti hop, eq_iff_sameFields [12, 4] rfl]
    simp [encode, extract_place_apart, extract_place_same, hop]
  | br hop =>
    have hbit : ∀ i, BitVec.ofBool (w.getLsbD i) = w.extractLsb' i 1 := fun _ => (extractLsb'_one rfl).symm
    rw [hread rfl, eq_iff_sameFields [9, 1, 1, 1, 4] rfl]
    simp [encode, extract_place_apart, extract_place_same, hop, hbit, -BitVec.getLsbD_eq_getElem]
  | ld hop | ldi hop | lea hop | st hop | sti hop =>
    rw [hread rfl, eq_iff_sameFields [9, 3, 4] rfl]
    simp [encode, extract_place_apart, extract_place_same, hop]
  | ldr hop | str hop =>
    rw [hread rfl, eq_iff_sameFields [6, 3, 3, 4] rfl]
    simp [encode, extract_place_apart, extract_place_same, hop]
  | reserved => exact iff_of_true rfl (hread rfl)

/-- Settles O8, by the fields of the decoded variant. -/
theorem encodeOfDecodeOnCanonicalWords : Obligations.EncodeOfDecodeOnCanonicalWords := fun w =>
  eq_comm.trans (decodesTo_decode w).eq_encode_iff

/-! ### Words under a mask -/

/-- A mask does not touch a field in which all its bits are set. -/
@[simp] theorem extractLsb'_and_ones (w m : Word) (lo k : Nat) (h : m.extractLsb' lo k = BitVec.allOnes k) :
    (w &&& m).extractLsb' lo k = w.extractLsb' lo k := by
  rw [BitVec.extractLsb'_and, h, BitVec.and_allOnes]

@[simp] theorem extractLsb'_and_zeros (w m : Word) (lo k : Nat) (h : m.extractLsb' lo k = 0#k) :
    (w &&& m).extractLsb' lo k = 0#k := by
  rw [BitVec.extractLsb'_and, h, BitVec.and_zero]

theorem extractLsb'_eq_of_and_eq {w v m : Word} (h : w &&& m = v &&& m) (lo k : Nat)
    (hm : m.extractLsb' lo k = BitVec.allOnes k) : w.extractLsb' lo k = v.extractLsb' lo k := by
  rw [← extractLsb'_and_ones w m lo k hm, h, extractLsb'_and_ones v m lo k hm]

theorem regField_eq_of_and_eq {w v m : Word} (h : w &&& m = v &&& m) (lo : Nat)
    (hm : m.extractLsb' lo 3 = BitVec.allOnes 3) : regField w lo = regField v lo :=
  congrArg BitVec.toFin (extractLsb'_eq_of_and_eq h lo 3 hm)

theorem getLsbD_eq_of_and_eq {w v m : Word} (h : w &&& m = v &&& m) (i : Nat) (hm : m.getLsbD i = true) :
    w.getLsbD i = v.getLsbD i := by
  simpa [hm] using congrArg (BitVec.getLsbD · i) h

/-- Settles O5, format by format: the two words have the fields that the format reads in common. -/
theorem unreadBitsDoNotMatter : Obligations.UnreadBitsDoNotMatter := by
  intro w v hop
  have hv : ∀ c, w.extractLsb' 12 4 = c → opcodeBits v = c := fun c hw => hop.symm.trans hw
  split
  next hw =>
    intro h5 h
    have h5' : v.getLsbD 5 = false := (getLsbD_eq_of_and_eq h 5 (by decide)).symm.trans h5
    rw [decode_add hw h5, decode_add (hv _ hw) h5', regField_eq_of_and_eq h 9 (by decide),
      regField_eq_of_and_eq h 6 (by decide), regField_eq_of_and_eq h 0 (by decide)]
  next hw =>
    intro h5 h
    have h5' : v.getLsbD 5 = false := (getLsbD_eq_of_and_eq h 5 (by decide)).symm.trans h5
    rw [decode_and hw h5, decode_and (hv _ hw) h5', regField_eq_of_and_eq h 9 (by decide),
      regField_eq_of_and_eq h 6 (by decide), regField_eq_of_and_eq h 0 (by decide)]
  next hw =>
    intro h
    rw [decode_not hw, decode_not (hv _ hw), regField_eq_of_and_eq h 9 (by decide),
      regField_eq_of_and_eq h 6 (by decide)]
  next hw =>
    intro h11 h
    have h11' : v.getLsbD 11 = false := (getLsbD_eq_of_and_eq h 11 (by decide)).symm.trans h11
    rw [decode_jsrr hw h11, decode_jsrr (hv _ hw) h11', regField_eq_of_and_eq h 6 (by decide)]
  next hw =>
    intro h
    rw [decode_jmp hw, decode_jmp (hv _ hw), regField_eq_of_and_eq h 6 (by decide)]
  next hw =>
    intro h
    have hvector : vectField w = vectField v := extractLsb'_eq_of_and_eq h 0 8 (by decide)
    rw [decode_trap hw, decode_trap (hv _ hw), hvector]
  next hw => rw [decode_rti hw, decode_rti (hv _ hw)]
  next => trivial

/-! ### The opcode table -/

theorem OpcodeRow.covers_iff (r : OpcodeRow) (w : Word) (ks : List Nat) (h : ks.sum = 16) :
    r.covers w = true ↔ SameFields (w &&& r.mask) r.value 0 ks := by
  rw [← eq_iff_sameFields ks h]
  exact beq_iff_eq

theorem OpcodeRow.isCanonical_iff (r : OpcodeRow) (w : Word) (ks : List Nat) (h : ks.sum = 16) :
    r.isCanonical w = true ↔ SameFields (w &&& r.canonMask) r.canonValue 0 ks := by
  rw [← eq_iff_sameFields ks h]
  exact beq_iff_eq

/-- Any two rows differ on a bit that both masks look at. -/
theorem rows_apart : ∀ r ∈ opcodeTable, ∀ r' ∈ opcodeTable,
    r.value &&& r'.mask = r'.value &&& r.mask → r' = r := by
  decide

/-- No word is covered by two rows. -/
theorem row_unique {r r' : OpcodeRow} {w : Word} (hr : r ∈ opcodeTable) (hr' : r' ∈ opcodeTable)
    (h : r.covers w = true) (h' : r'.covers w = true) : r' = r := by
  have hvalue : w &&& r.mask = r.value := beq_iff_eq.mp h
  have hvalue' : w &&& r'.mask = r'.value := beq_iff_eq.mp h'
  apply rows_apart r hr r' hr'
  rw [← hvalue, ← hvalue', BitVec.and_assoc, BitVec.and_assoc, BitVec.and_comm r.mask]

/-- The row is the one of an instruction that the word decodes to. -/
structure IsRowOf (w : Word) (i : Instr) (r : OpcodeRow) : Prop where
  listed : r ∈ opcodeTable
  covers : r.covers w = true
  mnemonic : r.mnemonic = i.mnemonic
  isCanonical : r.isCanonical w = canonical w

/-- To be the row is to have, field by field, the word's bits under the masks. -/
theorem isRowOf_of_fields {w : Word} {i : Instr} {r : OpcodeRow} (ks : List Nat) (hks : ks.sum = 16)
    (hr : r ∈ opcodeTable) (hname : r.mnemonic = i.mnemonic)
    (hfields : SameFields (w &&& r.mask) r.value 0 ks ∧
      (SameFields (w &&& r.canonMask) r.canonValue 0 ks ↔ canonical w = true)) : IsRowOf w i r := by
  obtain ⟨hvalue, hcanon⟩ := hfields
  exact ⟨hr, (r.covers_iff w ks hks).mpr hvalue, hname,
    Bool.eq_iff_iff.mpr ((r.isCanonical_iff w ks hks).trans hcanon)⟩

/-- Each variant has its row, the one of its place in the table. -/
theorem DecodesTo.exists_row {w : Word} {i : Instr} (h : DecodesTo w i) : ∃ r, IsRowOf w i r := by
  have hread := h.canonical_of_readsWholeWord
  cases h with
  | br hop =>
    refine ⟨opcodeTable[0], isRowOf_of_fields [12, 4] rfl (List.getElem_mem _) rfl ?_⟩
    simp [opcodeTable, hop, hread rfl]
  | ld hop =>
    refine ⟨opcodeTable[3], isRowOf_of_fields [12, 4] rfl (List.getElem_mem _) rfl ?_⟩
    simp [opcodeTable, hop, hread rfl]
  | st hop =>
    refine ⟨opcodeTable[4], isRowOf_of_fields [12, 4] rfl (List.getElem_mem _) rfl ?_⟩
    simp [opcodeTable, hop, hread rfl]
  | ldr hop =>
    refine ⟨opcodeTable[9], isRowOf_of_fields [12, 4] rfl (List.getElem_mem _) rfl ?_⟩
    simp [opcodeTable, hop, hread rfl]
  | str hop =>
    refine ⟨opcodeTable[10], isRowOf_of_fields [12, 4] rfl (List.getElem_mem _) rfl ?_⟩
    simp [opcodeTable, hop, hread rfl]
  | ldi hop =>
    refine ⟨opcodeTable[13], isRowOf_of_fields [12, 4] rfl (List.getElem_mem _) rfl ?_⟩
    simp [opcodeTable, hop, hread rfl]
  | sti hop =>
    refine ⟨opcodeTable[14], isRowOf_of_fields [12, 4] rfl (List.getElem_mem _) rfl ?_⟩
    simp [opcodeTable, hop, hread rfl]
  | reserved hop =>
    refine ⟨opcodeTable[16], isRowOf_of_fields [12, 4] rfl (List.getElem_mem _) rfl ?_⟩
    simp [opcodeTable, hop, hread rfl]
  | lea hop =>
    refine ⟨opcodeTable[17], isRowOf_of_fields [12, 4] rfl (List.getElem_mem _) rfl ?_⟩
    simp [opcodeTable, hop, hread rfl]
  | add hop h5 =>
    have h5' : w.extractLsb' 5 1 = 0#1 := extractLsb'_one h5
    refine ⟨opcodeTable[1], isRowOf_of_fields [3, 2, 1, 6, 4] rfl (List.getElem_mem _) rfl ?_⟩
    rw [canonical_of_registerMode (.inl hop) h5]
    simp [opcodeTable, hop, h5']
  | addi hop h5 =>
    have h5' : w.extractLsb' 5 1 = 1#1 := extractLsb'_one h5
    refine ⟨opcodeTable[2], isRowOf_of_fields [5, 1, 6, 4] rfl (List.getElem_mem _) rfl ?_⟩
    rw [canonical_of_immediateMode (.inl hop) h5]
    simp [opcodeTable, hop, h5']
  | jsrr hop h11 =>
    have h11' : w.extractLsb' 11 1 = 0#1 := extractLsb'_one h11
    refine ⟨opcodeTable[5], isRowOf_of_fields [6, 3, 2, 1, 4] rfl (List.getElem_mem _) rfl ?_⟩
    rw [canonical_jsrr hop h11]
    simp [opcodeTable, hop, h11', and_comm]
  | jsr hop h11 =>
    have h11' : w.extractLsb' 11 1 = 1#1 := extractLsb'_one h11
    refine ⟨opcodeTable[6], isRowOf_of_fields [11, 1, 4] rfl (List.getElem_mem _) rfl ?_⟩
    rw [canonical_jsr hop h11]
    simp [opcodeTable, hop, h11']
  | and_ hop h5 =>
    have h5' : w.extractLsb' 5 1 = 0#1 := extractLsb'_one h5
    refine ⟨opcodeTable[7], isRowOf_of_fields [3, 2, 1, 6, 4] rfl (List.getElem_mem _) rfl ?_⟩
    rw [canonical_of_registerMode (.inr hop) h5]
    simp [opcodeTable, hop, h5']
  | andi hop h5 =>
    have h5' : w.extractLsb' 5 1 = 1#1 := extractLsb'_one h5
    refine ⟨opcodeTable[8], isRowOf_of_fields [5, 1, 6, 4] rfl (List.getElem_mem _) rfl ?_⟩
    rw [canonical_of_immediateMode (.inr hop) h5]
    simp [opcodeTable, hop, h5']
  | rti hop =>
    refine ⟨opcodeTable[11], isRowOf_of_fields [12, 4] rfl (List.getElem_mem _) rfl ?_⟩
    rw [canonical_rti hop]
    simp [opcodeTable, hop]
  | not_ hop =>
    refine ⟨opcodeTable[12], isRowOf_of_fields [6, 6, 4] rfl (List.getElem_mem _) rfl ?_⟩
    rw [canonical_not hop]
    simp [opcodeTable, hop]
  | jmp hop =>
    refine ⟨opcodeTable[15], isRowOf_of_fields [6, 3, 3, 4] rfl (List.getElem_mem _) rfl ?_⟩
    rw [canonical_jmp hop]
    simp [opcodeTable, hop, and_comm]
  | trap hop =>
    refine ⟨opcodeTable[18], isRowOf_of_fields [8, 4, 4] rfl (List.getElem_mem _) rfl ?_⟩
    rw [canonical_trap hop]
    simp [opcodeTable, hop]

/-- Settles O6: the decoded variant's row covers the word, and no two rows do. -/
theorem everyWordHasOneTableRow : Obligations.EveryWordHasOneTableRow := fun w =>
  have ⟨r, hr⟩ := (decodesTo_decode w).exists_row
  ⟨r, hr.listed, hr.covers, hr.mnemonic, hr.isCanonical, fun _ hlisted hcovers =>
    row_unique hr.listed hlisted hr.covers hcovers⟩

end Sys2Proof
end

section
/-! What an instruction and a step can do, outcome by outcome, with the instruction that does it: the inversion that
the statements over all steps go through. -/

namespace Sys2Proof.Machine

open Sys2Proof.Claims

/-! ### Where the control transfers go -/

/-- Where BR leaves the PC: at its target, or untaken where it is (R120). -/
def State.brTarget (s : State) (n z p : Bool) (off : Word) : Word :=
  if branchTaken n z p s.cond then s.pcrel off else s.pc

/-- JMP's target in both modes (R121). -/
def State.jmpTarget (s : State) (base : Reg) : Word :=
  match s.params.jmpMode with
  | .add => s.pc + s.reg base
  | .assign => s.reg base

/-- JSRR's target in both orders (R123). -/
def State.jsrrTarget (s : State) (base : Reg) : Word :=
  match s.params.jsrrOrder with
  | .linkFirst => s.link.reg base
  | .readFirst => s.reg base

theorem exec_br_eq_setPc (n z p : Bool) (off : Word) (s : State) :
    exec (.br n z p off) s = .next (s.setPc (s.brTarget n z p off)) := by
  rw [exec_br, State.brTarget]
  split <;> rfl

theorem exec_jmp_eq_setPc (base : Reg) (s : State) :
    exec (.jmp base) s = .next (s.setPc (s.jmpTarget base)) := by
  cases hmode : s.params.jmpMode with
  | add => rw [exec_jmp_add base s hmode, State.jmpTarget, hmode]
  | assign => rw [exec_jmp_assign base s hmode, State.jmpTarget, hmode]

theorem exec_jsrr_eq_link_setPc (base : Reg) (s : State) :
    exec (.jsrr base) s = .next (s.link.setPc (s.jsrrTarget base)) := by
  cases horder : s.params.jsrrOrder with
  | linkFirst => rw [exec_jsrr_linkFirst base s horder, State.jsrrTarget, horder]
  | readFirst => rw [exec_jsrr_readFirst base s horder, State.jsrrTarget, horder]

/-! ### The services that look at the console or the memory -/

theorem exec_getc_of_byte {s : State} {b : Byte} (h : s.consoleRead = .byte b) :
    exec (.trap 0x20#8) s = .next (s.consoleTake.setReg 0 (zextByte b)) := by
  rw [exec_getc, trapGetc, h]

theorem exec_getc_of_end {s : State} (h : s.consoleRead = .endOfStream) :
    exec (.trap 0x20#8) s = .next (s.raise .consoleInputEnd .nothing) := by
  rw [exec_getc, trapGetc, h]

theorem exec_getc_of_blocks {s : State} (h : s.consoleRead = .blocks) :
    exec (.trap 0x20#8) s = .fault .consoleBlocked := by
  rw [exec_getc, trapGetc, h]

theorem exec_puts_of_some {s : State} {bs : List Byte} (h : putsWalk s.mem Memory.size (s.reg 0) = some bs) :
    exec (.trap 0x22#8) s = .next (s.consoleWrite bs) := by
  rw [exec_puts, trapPuts, h]

theorem exec_puts_of_none {s : State} (h : putsWalk s.mem Memory.size (s.reg 0) = none) :
    exec (.trap 0x22#8) s = .next (s.raise .putsOverrun (.start (s.reg 0))) := by
  rw [exec_puts, trapPuts, h]

/-! ### What an instruction can do -/

/-- What an instruction does that ends without a fault, with the entry of the spec's lists that allows it: DR of R28,
the register of R23, the cell of R42, the services of R150. -/
inductive Completing (s : State) (i : Instr) : State → Prop where
  | result {dr : Reg} (hi : codeSetterDest i = some dr) (v : Word) : Completing s i (s.writeResult dr v)
  | jump (hi : isControl i = true) (a : Word) : Completing s i (s.setPc a)
  | call (hi : isControl i = true) (hlink : writtenReg i = some 7) (a : Word) : Completing s i (s.link.setPc a)
  | store {a : Word} (hi : writtenCell s i = some a) (v : Word) : Completing s i (s.memWrite a v)
  | getc (hi : i = .trap 0x20#8) (b : Byte) : Completing s i (s.consoleTake.setReg 0 (zextByte b))
  | output (hi : i = .trap 0x21#8 ∨ i = .trap 0x22#8) (bs : List Byte) : Completing s i (s.consoleWrite bs)
  | halt (hi : i = .trap 0x25#8) : Completing s i s.halt

/-- Which fault an instruction raises, and when (R171). -/
inductive Raising (s : State) (i : Instr) : FaultKind → FaultInfo → Prop where
  | rti (hi : i = .rti) : Raising s i .rtiUnimplemented .nothing
  | reserved {w : Word} (hi : i = .reserved w) : Raising s i .reservedOpcode .nothing
  | trap {v : Byte} (hi : i = .trap v) (hv : ¬ implementedVector v) : Raising s i .trapUnimplemented (.vect v)
  | getc (hi : i = .trap 0x20#8) : Raising s i .consoleInputEnd .nothing
  | puts (hi : i = .trap 0x22#8) (hwalk : putsWalk s.mem Memory.size (s.reg 0) = none) :
    Raising s i .putsOverrun (.start (s.reg 0))

/-- The word a fault of the instruction records: its own, where it carries it (R172; log 14). -/
def State.recordWord (s : State) : Instr → Word
  | .reserved w => w
  | _ => s.memRead s.instrAddr

/-- The three ways an instruction ends. -/
inductive ExecOutcome (s : State) (i : Instr) : Result → Prop where
  | completes {t : State} (h : Completing s i t) : ExecOutcome s i (.next t)
  | raises {k : FaultKind} {info : FaultInfo} (h : Raising s i k info) :
    ExecOutcome s i (.next (s.raiseWord k (s.recordWord i) info))
  | blocks (hi : i = .trap 0x20#8) (hin : s.conIn = []) (htail : s.conTail = .silent) :
    ExecOutcome s i (.fault .consoleBlocked)

theorem exec_trap_outcome (v : Byte) (s : State) : ExecOutcome s (.trap v) (exec (.trap v) s) := by
  by_cases hv : implementedVector v
  · rcases hv with rfl | rfl | rfl | rfl
    · cases hread : s.consoleRead with
      | byte b => rw [exec_getc_of_byte hread]; exact .completes (.getc rfl b)
      | endOfStream => rw [exec_getc_of_end hread]; exact .raises (.getc rfl)
      | blocks =>
        obtain ⟨hin, htail⟩ := s.consoleRead_blocks.mp hread
        rw [exec_getc_of_blocks hread]
        exact .blocks rfl hin htail
    · exact .completes (.output (.inl rfl) _)
    · cases hwalk : putsWalk s.mem Memory.size (s.reg 0) with
      | some bs => rw [exec_puts_of_some hwalk]; exact .completes (.output (.inr rfl) bs)
      | none => rw [exec_puts_of_none hwalk]; exact .raises (.puts rfl hwalk)
    · exact .completes (.halt rfl)
  · rw [exec_trap_other v s hv]
    exact .raises (.trap rfl hv)

/-- Every instruction ends in one of the three ways, in every state. -/
theorem exec_outcome (i : Instr) (s : State) : ExecOutcome s i (exec i s) := by
  cases i with
  | add | addi | and_ | andi | not_ | ld | ldi | ldr | lea => exact .completes (.result rfl _)
  | st | sti | str => exact .completes (.store rfl _)
  | jsr => exact .completes (.call rfl rfl _)
  | rti => exact .raises (.rti rfl)
  | reserved w => exact .raises (.reserved rfl)
  | trap v => exact exec_trap_outcome v s
  | br n z p off => rw [exec_br_eq_setPc]; exact .completes (.jump rfl _)
  | jmp base => rw [exec_jmp_eq_setPc]; exact .completes (.jump rfl _)
  | jsrr base => rw [exec_jsrr_eq_link_setPc]; exact .completes (.call rfl rfl _)

/-! ### What completing leaves alone -/

section
variable {s t : State} {i : Instr}

theorem Completing.fault (h : Completing s i t) : t.fault = s.fault := by
  cases h <;> rfl

theorem Completing.params (h : Completing s i t) : t.params = s.params := by
  cases h <;> rfl

theorem Completing.conTail (h : Completing s i t) : t.conTail = s.conTail := by
  cases h <;> rfl

theorem Completing.halted_iff (h : Completing s i t) (hs : s.halted = false) :
    t.halted = true ↔ i = .trap 0x25#8 := by
  cases h with
  | halt hi => exact iff_of_true rfl hi
  | result hi | jump hi | call hi | store hi =>
    exact iff_of_false (ne_true_of_eq_false hs) (by rintro rfl; cases hi)
  | getc hi => exact iff_of_false (ne_true_of_eq_false hs) (by rw [hi]; decide)
  | output hi =>
    refine iff_of_false (ne_true_of_eq_false hs) ?_
    rcases hi with hi | hi <;> rw [hi] <;> decide

theorem Completing.pc (h : Completing s i t) (hi : isControl i = false) : t.pc = s.pc := by
  cases h with
  | jump hc | call hc => exact absurd (hc.symm.trans hi) (by decide)
  | result | store | getc | output | halt => rfl

theorem Completing.cond (h : Completing s i t) (hi : codeSetterDest i = none) : t.cond = s.cond := by
  cases h with
  | result hdr => rw [hi] at hdr; cases hdr
  | jump | call | store | getc | output | halt => rfl

theorem writtenReg_of_codeSetterDest {dr : Reg} (hi : codeSetterDest i = some dr) : writtenReg i = some dr := by
  cases i with
  | add | addi | and_ | andi | not_ | ld | ldi | ldr | lea => exact hi
  | br | jmp | jsr | jsrr | st | sti | str | trap | rti | reserved => cases hi

theorem Completing.reg (h : Completing s i t) {q : Reg} (hq : writtenReg i ≠ some q) : t.reg q = s.reg q := by
  have hother : ∀ r, writtenReg i = some r → q ≠ r := fun r hr e => hq (e ▸ hr)
  cases h with
  | result hi v => exact s.writeResult_reg_other v (hother _ (writtenReg_of_codeSetterDest hi))
  | call _ hlink => exact s.link_reg_other (hother 7 hlink)
  | getc hi b => exact s.consoleTake.setReg_reg_other _ (hother 0 (by rw [hi]; rfl))
  | jump | store | output | halt => rfl

theorem Completing.memRead (h : Completing s i t) {a : Word} (ha : writtenCell s i ≠ some a) :
    t.memRead a = s.memRead a := by
  cases h with
  | store hi v => exact s.memWrite_memRead_other v fun e => ha (e ▸ hi)
  | result | jump | call | getc | output | halt => rfl

theorem Completing.conOut (h : Completing s i t) :
    ∃ bs, t.conOut = s.conOut ++ bs ∧ (bs ≠ [] → i = .trap 0x21#8 ∨ i = .trap 0x22#8) := by
  cases h with
  | output hi bs => exact ⟨bs, rfl, fun _ => hi⟩
  | result | jump | call | store | getc | halt => exact ⟨[], (List.append_nil _).symm, fun h => absurd rfl h⟩

theorem Completing.conIn (h : Completing s i t) :
    (t.conReads = s.conReads ∧ t.conIn = s.conIn) ∨
      (i = .trap 0x20#8 ∧ t.conReads = s.conReads + 1 ∧ t.conIn = s.conIn.tail) := by
  cases h with
  | getc hi => exact .inr ⟨hi, rfl, rfl⟩
  | result | jump | call | store | output | halt => exact .inl ⟨rfl, rfl⟩

/-- RTI never completes (R156), nor does the reserved opcode (R157). -/
theorem Completing.ne_rti (h : Completing s i t) : i ≠ .rti := by
  rintro rfl
  cases h with
  | result hi | jump hi | call hi | store hi | getc hi | halt hi => cases hi
  | output hi => rcases hi with hi | hi <;> cases hi

theorem Completing.ne_reserved (h : Completing s i t) (w : Word) : i ≠ .reserved w := by
  rintro rfl
  cases h with
  | result hi | jump hi | call hi | store hi | getc hi | halt hi => cases hi
  | output hi => rcases hi with hi | hi <;> cases hi

/-- A trap that completes is one of the four services. -/
theorem Completing.implementedVector {v : Byte} (h : Completing s (.trap v) t) : implementedVector v := by
  cases h with
  | result hi | jump hi | call hi | store hi => cases hi
  | getc hi => exact .inl (Instr.trap.inj hi)
  | output hi => exact .inr (hi.imp Instr.trap.inj fun hi => .inl (Instr.trap.inj hi))
  | halt hi => exact .inr (.inr (.inr (Instr.trap.inj hi)))

end

/-- HALT raises no fault. -/
theorem Raising.ne_halt {s : State} {i : Instr} {k : FaultKind} {info : FaultInfo} (h : Raising s i k info) :
    i ≠ .trap 0x25#8 := by
  cases h with
  | rti hi | reserved hi | getc hi | puts hi => rw [hi]; simp
  | trap hi hv =>
    rintro rfl
    exact hv (.inr (.inr (.inr (Instr.trap.inj hi).symm)))

/-! ### What a step can do -/

/-- Where a next state comes from. -/
inductive StepCase (s t : State) : Prop where
  | rejected (hrej : ¬ Accepts s) (e : t = s.advance.raiseWord .illegalEncoding (fetched s) .nothing)
  | raised (hacc : Accepts s) {k : FaultKind} {info : FaultInfo}
    (h : Raising s.advance (decode (fetched s)) k info) (e : t = s.advance.raiseWord k (fetched s) info)
  | completed (hacc : Accepts s) (h : Completing s.advance (decode (fetched s)) t)

/-- The three ways a step ends. -/
inductive StepOutcome (s : State) : Result → Prop where
  | stopped {r : Fault} (h : s.stopReason = some r) : StepOutcome s (.fault r)
  | blocked (hen : s.Enabled) (hacc : Accepts s) (hi : decode (fetched s) = .trap 0x20#8) (hin : s.conIn = [])
    (htail : s.conTail = .silent) : StepOutcome s (.fault .consoleBlocked)
  | steps {t : State} (hen : s.Enabled) (h : StepCase s t) : StepOutcome s (.next t)

/-- In a step the recorded word is the fetched one (R172). -/
theorem State.advance_recordWord (s : State) : s.advance.recordWord (decode (fetched s)) = fetched s := by
  cases hi : decode (fetched s) with
  | reserved w => exact decode_reserved_word hi
  | _ => exact s.advance_instrWord

/-- A word that the strict check rejects raises IllegalEncoding (R175). -/
theorem step_of_rejected {s : State} (hen : s.Enabled) (hrej : ¬ Accepts s) :
    step s = .next (s.advance.raiseWord .illegalEncoding (fetched s) .nothing) := by
  have hr : s.rejectsWord s.fetchWord = true := by
    rw [← Bool.not_eq_false, s.rejectsWord_eq_false]; exact hrej
  exact (step_of_enabled s hen).trans (cycle_of_rejected s hr)

theorem step_outcome (s : State) : StepOutcome s (step s) := by
  cases hstop : s.stopReason with
  | some r =>
    rw [step, hstop]
    exact .stopped hstop
  | none =>
    have hen := s.stopReason_eq_none.mp hstop
    by_cases hacc : Accepts s
    · rw [step_of_accepted hen hacc]
      have h := exec_outcome (decode (fetched s)) s.advance
      generalize exec (decode (fetched s)) s.advance = r at h
      cases h with
      | completes h => exact .steps hen (.completed hacc h)
      | raises h =>
        rw [s.advance_recordWord]
        exact .steps hen (.raised hacc h rfl)
      | blocks hi hin htail => exact .blocked hen hacc hi hin htail
    · rw [step_of_rejected hen hacc]
      exact .steps hen (.rejected hacc rfl)

theorem stepCase {s t : State} (h : step s = .next t) : StepCase s t := by
  have ho := step_outcome s
  rw [h] at ho
  cases ho with
  | steps _ hcase => exact hcase

end Sys2Proof.Machine
end

section
/-! Proofs of the statements over all steps (10_state.md, 40_cycle.md, 60_exceptions.md): what a step writes, the
faults it records, what it does not look at, and the invariant it keeps. -/

namespace Sys2Proof.Machine

open Sys2Proof.Claims

/-- A step that records no fault has completed its instruction, which the strict check let through; any other has
raised, and done nothing else (R173). -/
theorem completed_or_raised {s t : State} (h : step s = .next t) :
    (t.fault = none ∧ Accepts s ∧ Completing s.advance (decode (fetched s)) t) ∨
      ∃ k info, t = s.advance.raiseWord k (fetched s) info := by
  have ⟨_, hnone⟩ := enabled_of_step h
  cases stepCase h with
  | rejected _ e => exact .inr ⟨_, _, e⟩
  | raised _ _ e => exact .inr ⟨_, _, e⟩
  | completed hacc hc => exact .inl ⟨hc.fault.trans hnone, hacc, hc⟩

/-! ### What a step writes, and its faults -/

/-- Settles O43: a step that records a fault has raised it and done nothing else. -/
theorem faultsArePrecise : Obligations.FaultsArePrecise := by
  intro s t r h hr
  rcases completed_or_raised h with ⟨hnone, -⟩ | ⟨k, info, rfl⟩
  · rw [hnone] at hr; cases hr
  · cases hr
    have hpc : s.advance.pc = s.advance.instrAddr + 1#16 := by rw [s.advance_instrAddr, s.advance_pc]
    exact ⟨rfl, s.advance_instrAddr, hpc, s.advance_reg, rfl, s.advance_memRead, rfl, ⟨⟨rfl, rfl, rfl⟩, rfl⟩, rfl⟩

/-- Settles O44: by the fault that is raised, and for a step that records none by what cannot complete. -/
theorem faultsHaveTheirOneCause : Obligations.FaultsHaveTheirOneCause := by
  refine ⟨fun s t h hacc => ?_, fun s t h hrej => ?_, rfl⟩
  · have hs : s.fault = none := (enabled_of_step h).2
    cases stepCase h with
    | rejected hrej => exact absurd hacc hrej
    | raised _ hr e =>
      subst e
      cases hr with
      | rti hi | reserved hi | getc hi | puts hi => rw [hi]; simp
      | trap hi hv =>
        simp only [implementedVector, not_or] at hv
        rw [hi]; simp [hv]
    | completed _ hc =>
      have hnone : t.fault = none := hc.fault.trans hs
      generalize decode (fetched s) = i at hc
      cases i with
      | rti => exact absurd rfl hc.ne_rti
      | reserved w => exact absurd rfl (hc.ne_reserved w)
      | trap v =>
        rcases hc.implementedVector with rfl | rfl | rfl | rfl <;> simp [hnone]
      | _ => exact hnone
  · cases stepCase h with
    | rejected _ e => subst e; rfl
    | raised hacc | completed hacc => exact absurd hacc hrej

/-- Settles O45: a completed instruction writes its listed register, a raised fault none. -/
theorem stepWritesOnlyTheListedRegister : Obligations.StepWritesOnlyTheListedRegister := by
  intro s t h
  rcases completed_or_raised h with ⟨hnone, -, hc⟩ | ⟨k, info, rfl⟩
  · exact ⟨fun q hq => hc.reg hq, fun hfault => absurd hnone hfault⟩
  · exact ⟨fun _ _ => rfl, fun _ _ => rfl⟩

/-- Settles O46: a completed instruction writes its listed cell, a raised fault none. -/
theorem stepWritesOnlyTheAddressedCell : Obligations.StepWritesOnlyTheAddressedCell := by
  intro s t h a ha
  rcases completed_or_raised h with ⟨-, -, hc⟩ | ⟨k, info, rfl⟩
  · exact hc.memRead ha
  · rfl

/-- Settles O47: HALT is the one instruction that completes by halting, and it raises no fault. -/
theorem onlyHaltHalts : Obligations.OnlyHaltHalts := by
  intro s t h
  have hrunning : s.halted ≠ true := ne_true_of_eq_false (enabled_of_step h).1
  cases stepCase h with
  | rejected hrej e =>
    subst e
    exact iff_of_false hrunning fun ⟨hacc, _⟩ => hrej hacc
  | raised _ hr e =>
    subst e
    exact iff_of_false hrunning fun ⟨_, hi⟩ => hr.ne_halt hi
  | completed hacc hc =>
    exact (hc.halted_iff (enabled_of_step h).1).trans (and_iff_right hacc).symm

/-- Settles O48: only a control transfer completes with another PC, and a raised fault leaves the PC. -/
theorem onlyControlTransfersLeaveTheSequence : Obligations.OnlyControlTransfersLeaveTheSequence := by
  intro s t h hi
  rcases completed_or_raised h with ⟨-, -, hc⟩ | ⟨k, info, rfl⟩
  · exact hc.pc hi
  · rfl

/-- Settles O49: by what a completed instruction does to the console, to which a raised fault does nothing. -/
theorem consoleStreamsOnlyAdvance : Obligations.ConsoleStreamsOnlyAdvance := by
  intro s t h
  rcases completed_or_raised h with ⟨-, -, hc⟩ | ⟨k, info, rfl⟩
  · exact ⟨hc.params, hc.conTail, hc.conOut, hc.conIn⟩
  · exact ⟨rfl, rfl, ⟨[], (List.append_nil _).symm, fun h => absurd rfl h⟩, .inl ⟨rfl, rfl⟩⟩

/-! ### The flags -/

/-- Settles O36: a code-setting instruction leaves the flags of its DR, and no other writes them. -/
theorem onlyNineInstructionsWriteTheFlags : Obligations.OnlyNineInstructionsWriteTheFlags := by
  intro s t h
  have hcase := completed_or_raised h
  cases hdr : codeSetterDest (decode (fetched s)) with
  | none =>
    rcases hcase with ⟨-, -, hc⟩ | ⟨k, info, rfl⟩
    · exact hc.cond hdr
    · rfl
  | some dr =>
    intro hnone
    rcases hcase with ⟨-, hacc, -⟩ | ⟨k, info, rfl⟩
    · rw [step_of_accepted (enabled_of_step h) hacc] at h
      rw [cond_of_codeSetter hdr h]
      exact flagsOf_condOf _
    · cases hnone

/-- An effect sets the flags of a result, or leaves them. -/
theorem Effect.cond {s t : State} (e : Effect s t) : t.cond = s.cond ∨ ∃ v, t.cond = condOf v := by
  cases e with
  | result dr v h => exact .inr ⟨v, by rw [h, State.writeResult_cond]⟩
  | nothing h | jump _ h | call _ h | store _ _ h | input _ _ h | output _ h | halt h | raise _ _ _ h =>
    subst h; exact .inl rfl

/-- Settles O37: the flags of a result are one-hot. -/
theorem oneFlagStaysSet : Obligations.OneFlagStaysSet := by
  intro s t h hone
  rcases (step_effect h).cond with hkept | ⟨v, hset⟩
  · rw [hkept]; exact hone
  · rw [hset]; exact condOf_oneHot v

/-! ### When the machine steps -/

/-- An accepted GETC blocks on a silent console with no byte left (R100). -/
theorem step_of_silentGetc {s : State} (hen : s.Enabled) (hacc : Accepts s) (hi : decode (fetched s) = .trap 0x20#8)
    (hin : s.conIn = []) (htail : s.conTail = .silent) : step s = .fault .consoleBlocked := by
  rw [step_of_accepted hen hacc, hi, exec_getc_of_blocks (s.advance.consoleRead_blocks.mpr ⟨hin, htail⟩)]

/-- Settles O40, by the three ways a step ends. -/
theorem enabledMachineStepsUnlessBlocked : Obligations.EnabledMachineStepsUnlessBlocked := by
  refine ⟨fun s => ⟨?_, ?_⟩, fun s hhalted => ?_, fun s hrunning hfault => ?_,
    fun _ => step_of_silentGetc, fun s m h => ?_⟩
  · rintro ⟨t, h⟩
    refine ⟨enabled_of_step h, ?_⟩
    rintro ⟨hacc, hi, hin, htail⟩
    rw [step_of_silentGetc (enabled_of_step h) hacc hi hin htail] at h
    cases h
  · rintro ⟨hen, hfree⟩
    have ho := step_outcome s
    generalize step s = r at ho
    cases ho with
    | stopped hstop => rw [s.stopReason_eq_none.mpr hen] at hstop; cases hstop
    | blocked _ hacc hi hin htail => exact absurd ⟨hacc, hi, hin, htail⟩ hfree
    | steps => exact ⟨_, rfl⟩
  · rw [step, State.stopReason, if_pos hhalted]
  · rw [step, State.stopReason, hrunning, if_neg (by decide), if_pos (Option.isSome_iff_ne_none.mpr hfault)]
  · have ho := step_outcome s
    rw [h] at ho
    cases ho

/-! ### The walk of PUTS (R153) -/

theorem toNat_add_one {a : Word} (h : a ≠ 0xFFFF#16) : (a + 1#16).toNat = a.toNat + 1 := by
  bv_omega

/-- The walk fails exactly where no cell from its start to 0xFFFF is zero. -/
theorem putsWalk_eq_none_iff (m : Memory) (fuel : Nat) (a : Word) (hfuel : Memory.size ≤ fuel + a.toNat) :
    putsWalk m fuel a = none ↔ ∀ b : Word, a.toNat ≤ b.toNat → m.read b.toNat ≠ 0x0000#16 := by
  induction fuel generalizing a with
  | zero =>
    have := a.isLt
    simp only [Memory.size] at hfuel
    omega
  | succ fuel ih =>
    by_cases hzero : m.read a.toNat = 0x0000#16
    · rw [putsWalk_zero m fuel a hzero]
      exact iff_of_false (by simp) fun h => h a le_rfl hzero
    · by_cases hlast : a = 0xFFFF#16
      · subst hlast
        refine iff_of_true (putsWalk_last m fuel hzero) fun b hb => ?_
        obtain rfl : b = 0xFFFF#16 := by bv_omega
        exact hzero
      · have hnext := toNat_add_one hlast
        rw [putsWalk_step m fuel a hzero hlast, Option.map_eq_none_iff, ih _ (by omega), hnext]
        refine ⟨fun h b hb => ?_, fun h b hb => h b (by omega)⟩
        rcases Nat.eq_or_lt_of_le hb with heq | hlt
        · rw [← heq]; exact hzero
        · exact h b hlt

/-- Where the first zero cell is `n` cells on, the walk gives the low bytes of the `n` cells before it. -/
theorem putsWalk_eq_some (m : Memory) (n fuel : Nat) (a : Word) (hn : a.toNat + n < Memory.size) (hfuel : n < fuel)
    (hstring : ∀ k < n, m.read (a + BitVec.ofNat 16 k).toNat ≠ 0x0000#16)
    (hend : m.read (a + BitVec.ofNat 16 n).toNat = 0x0000#16) :
    putsWalk m fuel a =
      some ((List.range n).map fun k => lowByte (m.read (a + BitVec.ofNat 16 k).toNat)) := by
  obtain ⟨fuel, rfl⟩ := Nat.exists_eq_add_one_of_ne_zero (Nat.ne_zero_of_lt hfuel)
  induction n generalizing a fuel with
  | zero => exact putsWalk_zero m fuel a (by simpa using hend)
  | succ n ih =>
    have hfirst : m.read a.toNat ≠ 0x0000#16 := by simpa using hstring 0 (by omega)
    have hlast : a ≠ 0xFFFF#16 := by simp only [Memory.size] at hn; bv_omega
    have hshift : ∀ k, a + BitVec.ofNat 16 (k + 1) = a + 1#16 + BitVec.ofNat 16 k := by
      intro k; rw [Nat.add_comm, BitVec.ofNat_add, BitVec.add_assoc]
    obtain ⟨fuel, rfl⟩ := Nat.exists_eq_add_one_of_ne_zero (show fuel ≠ 0 by omega)
    rw [putsWalk_step m _ a hfirst hlast, ih (a + 1#16) (by rw [toNat_add_one hlast]; omega)
      (fun k hk => hshift k ▸ hstring (k + 1) (by omega)) (hshift n ▸ hend) fuel (by omega)]
    have hrest : (fun k => lowByte (m.read (a + BitVec.ofNat 16 k).toNat)) ∘ Nat.succ =
        fun k => lowByte (m.read (a + 1#16 + BitVec.ofNat 16 k).toNat) :=
      funext fun k => by rw [Function.comp_apply, Nat.succ_eq_add_one, hshift k]
    rw [Option.map_some, List.range_succ_eq_map, List.map_cons, List.map_map, hrest, BitVec.add_zero]

/-! ### Memory and console input that an instruction does not look at -/

/-! ### What an instruction does not look at -/

/-- The state with another console input. -/
def State.withInput (s : State) (bs : List Byte) (tail : ConsoleTail) (k : Nat) : State :=
  { s with conIn := bs, conTail := tail, conReads := k }

/-- The state with another memory. -/
def State.withMem (s : State) (m : Memory) : State := { s with mem := m }

/-- The console's input reaches GETC alone (R99). -/
theorem exec_withInput (i : Instr) (s : State) (bs : List Byte) (tail : ConsoleTail) (k : Nat)
    (hi : i ≠ .trap 0x20#8) :
    exec i (s.withInput bs tail k) = mapNext (·.withInput bs tail k) (exec i s) := by
  cases i with
  | add | addi | and_ | andi | not_ | ld | ldi | ldr | lea | st | sti | str | jsr | rti | reserved => rfl
  | br => rw [exec_br_eq_setPc, exec_br_eq_setPc]; rfl
  | jmp => rw [exec_jmp_eq_setPc, exec_jmp_eq_setPc]; rfl
  | jsrr => rw [exec_jsrr_eq_link_setPc, exec_jsrr_eq_link_setPc]; rfl
  | trap v =>
    by_cases hv : implementedVector v
    · rcases hv with rfl | rfl | rfl | rfl
      · exact absurd rfl hi
      · rfl
      · cases hwalk : putsWalk s.mem Memory.size (s.reg 0) with
        | some out => rw [exec_puts_of_some hwalk, exec_puts_of_some (s := s.withInput bs tail k) hwalk]; rfl
        | none => rw [exec_puts_of_none hwalk, exec_puts_of_none (s := s.withInput bs tail k) hwalk]; rfl
      · rfl
    · rw [exec_trap_other v _ hv, exec_trap_other v _ hv]; rfl

/-- Memory reaches the loads, the stores and PUTS alone, but for the cell a record's word is taken from (R42;
log 14). -/
theorem exec_withMem (i : Instr) (s : State) (m : Memory) (hi : makesNoDataAccess i = true)
    (hcell : takesRecordWordFromItsCell i = true → m.read s.instrAddr.toNat = s.memRead s.instrAddr) :
    exec i (s.withMem m) = mapNext (·.withMem m) (exec i s) := by
  cases i with
  | add | addi | and_ | andi | not_ | lea | jsr | reserved => rfl
  | ld | ldi | ldr | st | sti | str => cases hi
  | br => rw [exec_br_eq_setPc, exec_br_eq_setPc]; rfl
  | jmp => rw [exec_jmp_eq_setPc, exec_jmp_eq_setPc]; rfl
  | jsrr => rw [exec_jsrr_eq_link_setPc, exec_jsrr_eq_link_setPc]; rfl
  | rti => exact congrArg _ (s.raise_with_mem m _ _ (hcell rfl))
  | trap v =>
    by_cases hv : implementedVector v
    · rcases hv with rfl | rfl | rfl | rfl
      · cases hread : s.consoleRead with
        | byte b => rw [exec_getc_of_byte hread, exec_getc_of_byte (s := s.withMem m) hread]; rfl
        | endOfStream =>
          rw [exec_getc_of_end hread, exec_getc_of_end (s := s.withMem m) hread]
          exact congrArg _ (s.raise_with_mem m _ _ (hcell rfl))
        | blocks => rw [exec_getc_of_blocks hread, exec_getc_of_blocks (s := s.withMem m) hread]; rfl
      · rfl
      · cases hi
      · rfl
    · have htakes : takesRecordWordFromItsCell (.trap v) = true := by
        simp only [implementedVector, not_or] at hv
        simp [takesRecordWordFromItsCell, hv]
      rw [exec_trap_other v _ hv, exec_trap_other v _ hv]
      exact congrArg _ (s.raise_with_mem m _ _ (hcell htakes))

/-- Settles O50. The two records of the statement are the state with another memory. -/
theorem otherInstructionsIgnoreMemory : Obligations.OtherInstructionsIgnoreMemory := fun i s m hi hcell =>
  exec_withMem i s m hi hcell

/-- Settles O42: neither the stop, nor the fetch and its check, nor any instruction but GETC looks at the input. -/
theorem consoleInputReachesOnlyGetc : Obligations.ConsoleInputReachesOnlyGetc := by
  intro s bs tail k hi
  show step (s.withInput bs tail k) = mapNext (·.withInput bs tail k) (step s)
  cases hstop : s.stopReason with
  | some r =>
    have hstop' : (s.withInput bs tail k).stopReason = some r := hstop
    rw [step, step, hstop, hstop']; rfl
  | none =>
    have hen : s.Enabled := s.stopReason_eq_none.mp hstop
    have hen' : (s.withInput bs tail k).Enabled := hen
    by_cases hacc : Accepts s
    · rw [step_of_accepted hen hacc, step_of_accepted hen' hacc]
      exact exec_withInput _ s.advance bs tail k hi
    · rw [step_of_rejected hen hacc, step_of_rejected hen' hacc]
      rfl

/-! ### The invariant -/

/-- A fault that a step raises has the cause R171 gives its kind. -/
theorem StepCase.explained {s t : State} (h : StepCase s t) (hs : s.fault = none) {r : FaultRecord}
    (hr : t.fault = some r) : r.Explained t := by
  cases h with
  | rejected hrej e =>
    obtain ⟨hstrict, hcanon⟩ := Classical.not_imp.mp hrej
    subst e
    cases hr
    exact ⟨hstrict, Bool.eq_false_of_not_eq_true hcanon, rfl⟩
  | raised _ h e =>
    subst e
    cases hr
    cases h with
    | rti hi => exact ⟨hi, rfl⟩
    | reserved hi => exact ⟨hi.trans (congrArg _ (decode_reserved_word hi)), rfl⟩
    | trap hi hv => exact ⟨_, hi, hv, rfl⟩
    | getc hi => exact ⟨hi, rfl⟩
    | puts hi hwalk => exact ⟨hi, rfl, (putsWalk_eq_none_iff _ _ _ (Nat.le_add_right _ _)).mp hwalk⟩
  | completed _ h =>
    rw [h.fault.trans hs] at hr
    cases hr

/-- Settles O55: every effect keeps memory canonical, only a running machine without a fault steps, and a fault
that a step records is precise and explained. -/
theorem stepKeepsTheInvariant : Obligations.StepKeepsTheInvariant := by
  intro s t hinv h
  have ⟨hrunning, hnone⟩ := enabled_of_step h
  refine ⟨(step_effect h).mem_wf hinv.mem_wf, ?_, fun r hr => ?_⟩
  · rintro ⟨hhalted, hfault⟩
    rcases completed_or_raised h with ⟨hnofault, -⟩ | ⟨k, info, rfl⟩
    · exact hfault hnofault
    · exact ne_true_of_eq_false hrunning hhalted
  · obtain ⟨hword, haddr, hpc, -, -, hmem, -⟩ := faultsArePrecise s t r h hr
    have hcell : t.memRead r.addr = r.word := by rw [hmem, haddr, hword]
    exact ⟨hpc, hcell, (stepCase h).explained hnone hr⟩

end Sys2Proof.Machine
end

section
/-! Proofs of the remaining instructions' statements (41_operate.md, 42_control.md, 44_store.md, 45_trap_system.md):
NOT and the subtraction idiom, JMP, JSRR and the no-op, the next fetch after a store, the TRAP services and
the fatal errors. -/

namespace Sys2Proof.Machine

open Sys2Proof.Claims

/-! ### Raising and writing -/

/-- An instruction that ends by raising a fault records it and changes nothing else (R173). -/
theorem raises_of_exec_eq_raiseWord {i : Instr} {s : State} {k : FaultKind} {w : Word} {info : FaultInfo}
    (h : exec i s = .next (s.raiseWord k w info)) : Raises i s k w info := by
  have hregs : SameRegisters s (s.raiseWord k w info) := s.raiseWord_reg k w info
  have hmem : SameMemory s (s.raiseWord k w info) := s.raiseWord_memRead k w info
  have hconsole : SameConsole s (s.raiseWord k w info) := ⟨⟨rfl, rfl, rfl⟩, rfl⟩
  exact ⟨s.raiseWord k w info, h, s.raiseWord_fault k w info, hregs, s.raiseWord_pc k w info,
    s.raiseWord_cond k w info, hmem, s.raiseWord_halted k w info, hconsole, s.raiseWord_params k w info⟩

/-- An instruction that ends by writing to the console changes the output and nothing else. -/
theorem writes_of_exec_eq_consoleWrite {i : Instr} {s : State} {bs : List Byte}
    (h : exec i s = .next (s.consoleWrite bs)) : Writes i s bs := by
  have hregs : SameRegisters s (s.consoleWrite bs) := s.consoleWrite_reg bs
  have hmem : SameMemory s (s.consoleWrite bs) := s.consoleWrite_memRead bs
  exact ⟨s.consoleWrite bs, h, s.consoleWrite_conOut bs, ⟨rfl, rfl, rfl⟩, hregs, s.consoleWrite_pc bs,
    s.consoleWrite_cond bs, hmem, ⟨rfl, rfl⟩, s.consoleWrite_params bs⟩

/-- A step that ends by raising a fault records the fetched word and its address, and changes nothing else
(R172, R173). -/
theorem stepRaises_of_step_eq {s : State} {k : FaultKind} {info : FaultInfo}
    (h : step s = .next (s.advance.raiseWord k (fetched s) info)) : StepRaises s k info := by
  have hfault : (s.advance.raiseWord k (fetched s) info).fault = some ⟨k, fetched s, s.pc, info⟩ := by
    rw [State.raiseWord_fault, State.advance_instrAddr]
  have hregs : SameRegisters s (s.advance.raiseWord k (fetched s) info) := s.advance_reg
  have hmem : SameMemory s (s.advance.raiseWord k (fetched s) info) := s.advance_memRead
  have hconsole : SameConsole s (s.advance.raiseWord k (fetched s) info) := ⟨⟨rfl, rfl, rfl⟩, rfl⟩
  exact ⟨_, h, hfault, s.advance_pc, hregs, s.advance_cond, hmem, s.advance_halted, hconsole, s.advance_params⟩

/-- A step whose instruction raises a fault without carrying its word records the fetched one. -/
theorem stepRaises_of_exec_eq_raise {s : State} (hen : s.Enabled) (hacc : Accepts s) {k : FaultKind}
    {info : FaultInfo} (h : exec (decode (fetched s)) s.advance = .next (s.advance.raise k info)) :
    StepRaises s k info :=
  stepRaises_of_step_eq ((step_of_accepted hen hacc).trans (h.trans (congrArg _ (s.advance_raise k info))))

/-! ### The strict check (R71, R175) -/

/-- Settles O41: a rejected word raises IllegalEncoding. -/
theorem strictModeRejectsNonCanonicalWords : Obligations.StrictModeRejectsNonCanonicalWords := by
  intro s hen hstrict hcanon
  have hrej : ¬ Accepts s := fun hacc => Bool.false_ne_true (hcanon.symm.trans (hacc hstrict))
  exact stepRaises_of_step_eq (step_of_rejected hen hrej)

/-- The strict check lets every word through whose format has no unread bit. -/
theorem accepts_of_readsWholeWord {s : State} (h : (decode (fetched s)).opcode.readsWholeWord = true) : Accepts s :=
  fun _ => (decodesTo_decode (fetched s)).canonical_of_readsWholeWord h

/-! ### NOT and subtraction (R109, R114) -/

/-- Settles O13: the decoder's line for NOT, the complement delivered to DR, and the strict check of bits[5:0]. -/
theorem notWritesTheComplement : Obligations.NotWritesTheComplement := by
  refine ⟨fun _ hop => decode_not hop, fun dr sr s => delivers_of_exec_eq_writeResult (exec_not dr sr s),
    fun s hen hstrict hop hunread => strictModeRejectsNonCanonicalWords s hen hstrict ?_⟩
  rw [canonical_not hop]
  exact beq_eq_false_iff_ne.mpr hunread

/-- Settles O14: the three results are written to `d` one over the other, and the last is the difference in two's
complement. -/
theorem notThenAddOneThenAddSubtracts : Obligations.NotThenAddOneThenAddSubtracts := by
  intro d x y s hdx
  let t₁ := s.writeResult d (~~~ s.reg y)
  let t₂ := t₁.writeResult d (t₁.reg d + 0x0001#16)
  have hx : t₂.reg x = s.reg x := by simp [t₁, t₂, Ne.symm hdx]
  have hd : t₂.reg d = ~~~ s.reg y + 0x0001#16 := by simp [t₁, t₂]
  have hdiff : t₂.reg x + t₂.reg d = s.reg x - s.reg y := by
    rw [hx, hd, BitVec.sub_eq_add_neg, BitVec.neg_eq_not_add]
  refine ⟨t₁, t₂, t₂.writeResult d (s.reg x - s.reg y), exec_not d y s, exec_addi d d _ t₁, ?_,
    t₂.writeResult_reg_same d _, flagsOf_condOf _, ?_, rfl, fun _ => rfl, ⟨rfl, rfl⟩, ⟨⟨rfl, rfl, rfl⟩, rfl⟩, rfl⟩
  · rw [exec_add, hdiff]
  · intro q hq
    simp [t₁, t₂, hq]

/-! ### JMP, JSRR and the no-op (R74, R121, R123) -/

/-- Settles O16: the decoder's line for JMP, and a jump to the mode's target. -/
theorem jmpAddsOrAssigns : Obligations.JmpAddsOrAssigns :=
  ⟨fun _ hop => decode_jmp hop, fun base s =>
    ⟨fun hmode => goesTo_of_exec_eq_setPc (exec_jmp_add base s hmode),
      fun hmode => goesTo_of_exec_eq_setPc (exec_jmp_assign base s hmode)⟩⟩

/-- Settles O18: the decoder's line for JSRR, and a call; that R7 is linked first shows only where it is the base. -/
theorem jsrrLinksAndAssigns : Obligations.JsrrLinksAndAssigns := by
  refine ⟨fun _ hop h11 => decode_jsrr hop h11, fun base s => ?_⟩
  refine ⟨fun horder => calls_of_exec_eq_link_setPc (exec_jsrr_readFirst base s horder), ?_, ?_⟩
  · intro horder hbase
    rw [← s.link_reg_other hbase]
    exact calls_of_exec_eq_link_setPc (exec_jsrr_linkFirst base s horder)
  · rintro horder rfl
    have h := calls_of_exec_eq_link_setPc (exec_jsrr_linkFirst 7 s horder)
    rwa [s.link_reg_same] at h

/-- Settles O19: the word is a BR whose mask meets no flags, and no BR word is rejected. -/
theorem brWithEmptyMaskIsANoOp : Obligations.BrWithEmptyMaskIsANoOp := by
  intro s hen hmask
  have hbits : ∀ i : Fin 7, (fetched s).getLsbD (9 + i) = false := by
    simpa using (extract_eq_iff_bits _ 9 _).mp hmask
  have hop : opcodeBits (fetched s) = 0b0000#4 := by
    refine (extract_eq_iff_bits _ 12 _).mpr fun i => ?_
    simpa [← Nat.add_assoc] using hbits (i.natAdd 3)
  have hi : decode (fetched s) = .br false false false (sextField (fetched s) 9) := by
    have hn : (fetched s).getLsbD 11 = false := hbits 2
    have hz : (fetched s).getLsbD 10 = false := hbits 1
    have hp : (fetched s).getLsbD 9 = false := hbits 0
    rw [decode_br hop, hn, hz, hp]
  have hacc : Accepts s := accepts_of_readsWholeWord (by rw [hi]; rfl)
  have hstep : step s = .next s.advance := by
    rw [step_of_accepted hen hacc, hi]
    exact exec_br_untaken _ (by simp [branchTaken])
  exact ⟨s.advance, hstep, rfl, s.advance_reg, rfl, s.advance_memRead, ⟨rfl, rfl⟩, ⟨⟨rfl, rfl, rfl⟩, rfl⟩, rfl⟩

/-! ### The next fetch after a store (R53) -/

/-- Settles O27: the cell that ST writes is the one its successor is fetched from. -/
theorem storeIsSeenByTheNextFetch : Obligations.StoreIsSeenByTheNextFetch := by
  intro s sr hen hi
  let t := s.advance.memWrite (s.pc + 1#16) (s.reg sr)
  have haddr : s.advance.pcrel 0x0000#16 = s.pc + 1#16 := BitVec.add_zero _
  have hstep : step s = .next t := by
    rw [step_of_accepted hen (accepts_of_readsWholeWord (by rw [hi]; rfl)), hi, exec_st, haddr]
    rfl
  have hfetched : fetched t = s.reg sr := State.memWrite_memRead_same _ _ _
  refine ⟨t, hstep, hen, rfl, hfetched, fun hacc => ?_⟩
  have hpc : t.pc + 1#16 = s.pc + 2#16 := BitVec.add_assoc _ _ _
  have hen' : t.Enabled := hen
  rw [step_of_accepted hen' hacc, hfetched, State.advance, hpc]
  rfl

/-! ### GETC (R151) -/

/-- What GETC does with a byte: R0 is the byte, one byte is consumed, nothing else changes. -/
def TakesByte (s : State) (b : Byte) : Prop :=
  ∃ t, exec (.trap 0x20#8) s = .next t ∧ t.reg 0 = b.zeroExtend 16 ∧ t.conIn = s.conIn.tail ∧
    t.conReads = s.conReads + 1 ∧ t.conTail = s.conTail ∧ t.conOut = s.conOut ∧
    SameRegistersBut 0 s t ∧ t.pc = s.pc ∧ t.cond = s.cond ∧ SameMemory s t ∧ SameStatus s t ∧
    t.params = s.params

theorem takesByte_of_consoleRead {s : State} {b : Byte} (h : s.consoleRead = .byte b) : TakesByte s b := by
  let t := s.consoleTake.setReg 0 (zextByte b)
  have hr0 : t.reg 0 = zextByte b := s.consoleTake.setReg_reg_same 0 _
  have hothers : SameRegistersBut 0 s t := fun _ hq => s.consoleTake.setReg_reg_other _ hq
  exact ⟨t, exec_getc_of_byte h, hr0, rfl, rfl, rfl, rfl, hothers, rfl, rfl, fun _ => rfl, ⟨rfl, rfl⟩, rfl⟩

theorem raises_getc_of_end {s : State} (h : s.consoleRead = .endOfStream) :
    Raises (.trap 0x20#8) s .consoleInputEnd (s.memRead (s.pc - 1#16)) .nothing :=
  raises_of_exec_eq_raiseWord (exec_getc_of_end h)

/-- Settles O28, by what the console's read finds. -/
theorem getcReadsOneByteOrEndsOrBlocks : Obligations.GetcReadsOneByteOrEndsOrBlocks := by
  refine ⟨fun _ hop hvector => decode_trap_of_vector hop hvector, fun s b rest hin => ?_, fun s hin htail => ?_,
    fun s hin htail => ?_, fun s hin htail => ?_⟩
  · have hread : s.consoleRead = .byte b := by rw [State.consoleRead, hin]
    have h := takesByte_of_consoleRead hread
    rwa [TakesByte, hin] at h
  · cases hdraw : Config.consoleDraw s.conReads with
    | some b =>
      have hread : s.consoleRead = .byte b := by simp only [State.consoleRead, hin, htail, hdraw]
      have h := takesByte_of_consoleRead hread
      rwa [TakesByte, hin] at h
    | none => exact raises_getc_of_end (by simp only [State.consoleRead, hin, htail, hdraw])
  · exact raises_getc_of_end (by simp only [State.consoleRead, hin, htail])
  · exact exec_getc_of_blocks (s.consoleRead_blocks.mpr ⟨hin, htail⟩)

/-! ### OUT and PUTS (R152, R153) -/

/-- The low byte is bits[7:0]. -/
theorem lowByte_eq_extractLsb' (v : Word) : lowByte v = v.extractLsb' 0 8 := by
  rw [lowByte, BitVec.setWidth_eq_extractLsb' (by decide)]

/-- Settles O29: the decoder's line for TRAP, and one byte written. -/
theorem outWritesTheLowByteOfR0 : Obligations.OutWritesTheLowByteOfR0 :=
  ⟨fun _ hop hvector => decode_trap_of_vector hop hvector, fun s =>
    lowByte_eq_extractLsb' (s.reg 0) ▸ writes_of_exec_eq_consoleWrite (exec_out s)⟩

/-- Settles O30: the decoder's line for TRAP, and the two ends of the walk from R0. -/
theorem putsWritesUpToTheZeroCell : Obligations.PutsWritesUpToTheZeroCell := by
  refine ⟨fun _ hop hvector => decode_trap_of_vector hop hvector, fun s n hn hstring hend => ?_, fun s hall => ?_⟩
  · have hwalk := putsWalk_eq_some s.mem n Memory.size (s.reg 0) hn (by simp only [Memory.size]; omega) hstring hend
    simp only [lowByte_eq_extractLsb'] at hwalk
    exact writes_of_exec_eq_consoleWrite (exec_puts_of_some hwalk)
  · have hwalk := (putsWalk_eq_none_iff s.mem Memory.size (s.reg 0) (Nat.le_add_right _ _)).mpr hall
    exact raises_of_exec_eq_raiseWord (exec_puts_of_none hwalk)

/-! ### The fatal errors (R155 to R157) -/

/-- Settles O32: the decoder's line for TRAP, and the fault of a vector outside the table. -/
theorem otherTrapVectorsAreFatal : Obligations.OtherTrapVectorsAreFatal := by
  refine ⟨fun _ hop => decode_trap hop, fun v s h20 h21 h22 h25 => ?_, fun v s h20 h21 h22 h25 hen hacc hi => ?_⟩
  all_goals have hv : ¬ implementedVector v := by simp [h20, h21, h22, h25]
  · exact raises_of_exec_eq_raiseWord (exec_trap_other v s hv)
  · exact stepRaises_of_exec_eq_raise hen hacc (hi ▸ exec_trap_other v s.advance hv)

/-- Settles O33: the decoder's line for RTI, and its fault. -/
theorem rtiIsFatal : Obligations.RtiIsFatal :=
  ⟨fun _ hop => decode_rti hop, fun s => raises_of_exec_eq_raiseWord (exec_rti s), fun s hen hacc hop =>
    stepRaises_of_exec_eq_raise hen hacc (by rw [decode_rti hop, exec_rti])⟩

/-- Settles O34: the decoder's line for opcode 1101, whose words the strict check never rejects, and its fault. -/
theorem reservedOpcodeIsFatal : Obligations.ReservedOpcodeIsFatal := by
  refine ⟨fun _ hop => decode_reserved hop, fun w s => raises_of_exec_eq_raiseWord (exec_reserved w s),
    fun s hen hop => ?_⟩
  have hi : decode (fetched s) = .reserved (fetched s) := decode_reserved hop
  have hacc : Accepts s := accepts_of_readsWholeWord (by rw [hi]; rfl)
  exact stepRaises_of_step_eq (by rw [step_of_accepted hen hacc, hi, exec_reserved])

end Sys2Proof.Machine
end

section
/-! Proofs of the statements on reset and launch (70_reset_and_hazards.md R190): what the loader's writes leave in
memory, and the invariant at the start of a run. -/

namespace Sys2Proof.Machine

open Sys2Proof.Claims

/-- A cell that the image does not name is left alone. -/
theorem Memory.read_load_of_unnamed (m : Memory) (image : List (Word × Word)) (a : Word) (h : ∀ c ∈ image, c.1 ≠ a) :
    (m.load image).read a.toNat = m.read a.toNat := by
  induction image generalizing m with
  | nil => rfl
  | cons c image ih =>
    have ⟨hc, himage⟩ := List.forall_mem_cons.mp h
    have hne : a.toNat ≠ c.1.toNat := fun e => hc (BitVec.eq_of_toNat_eq e).symm
    exact (ih (m.write c.1.toNat c.2) himage).trans (m.read_write_other c.2 hne)

theorem Memory.load_append (m : Memory) (pre post : List (Word × Word)) :
    m.load (pre ++ post) = (m.load pre).load post := by
  induction pre generalizing m with
  | nil => rfl
  | cons c pre ih => exact ih (m.write c.1.toNat c.2)

/-- A cell holds the last word that the image gives it. -/
theorem Memory.read_load_of_last (m : Memory) (pre post : List (Word × Word)) (a v : Word)
    (h : ∀ c ∈ post, c.1 ≠ a) : (m.load (pre ++ (a, v) :: post)).read a.toNat = v := by
  rw [m.load_append, Memory.load, Memory.read_load_of_unnamed _ post a h, Memory.read_write_same]

/-- Settles O52: the components are the parameters', and memory is what the loader's writes leave. -/
theorem launchBuildsTheParametersState : Obligations.LaunchBuildsTheParametersState := by
  refine fun p image => ⟨fun _ => rfl, rfl, rfl, rfl, rfl, rfl, rfl, rfl, rfl, rfl, fun a ha => ?_, ?_⟩
  · exact Memory.read_load_of_unnamed [] image a ha
  · rintro pre post a v rfl hpost
    exact Memory.read_load_of_last [] pre post a v hpost

/-- Settles O51: the reset state is a launch with an empty image. -/
theorem resetStateHoldsTheDefaults : Obligations.ResetStateHoldsTheDefaults := by
  have hregs : ∀ q : Reg, State.reset.reg q = 0x0000#16 := by decide
  exact ⟨hregs, rfl, rfl, fun _ => rfl, rfl, rfl, rfl, State.launch_default.symm⟩

/-- Settles O54: the loader's writes keep memory canonical, and a launched machine has neither halted nor faulted. -/
theorem launchMeetsTheInvariant : Obligations.LaunchMeetsTheInvariant := fun _ image =>
  ⟨Memory.wf_load [] image rfl, fun ⟨_, hfault⟩ => hfault rfl, fun _ hr => by cases hr⟩

/-- Settles O53: reset is a launch. -/
theorem resetMeetsTheInvariant : Obligations.ResetMeetsTheInvariant := by
  rw [Obligations.ResetMeetsTheInvariant, ← State.launch_default]
  exact launchMeetsTheInvariant Config.launchParams []

end Sys2Proof.Machine
end
